-- ==== Sys2Proof/Word.lean ====
section
/-! DEFINITION. The three value types of the block: bytes, 32-bit values and byte sequences (00_scope.md R12, R13). -/

namespace Sys2Proof

/-- An 8-bit value. -/
abbrev Byte := BitVec 8

/-- A u32: 0 to 2^32 - 1, bit 0 least significant (R12). -/
abbrev Word := BitVec 32

/-- A finite sequence of bytes (R13). -/
abbrev Bytes := List Byte

end Sys2Proof
end

