-- ==== Sys2Proof/Syntax.lean ====
section
/-! DEFINITION. The ten commands of 30_encoding.md R67. A command carries no immediate operand (R71), so no constructor
has an argument. -/

namespace Sys2Proof

/-- One constructor per row of the opcode map. -/
inductive Instr where
  | nop
  | crc32
  | adler32
  | parse
  | serialize
  | ctClear
  | ctAppend
  | ctRead
  | reframe
  | decrush
deriving DecidableEq, Repr

end Sys2Proof
end

