-- ==== Sys2Proof/Decode.lean ====
section
/-! DEFINITION. Decoding and encoding of the command word (30_encoding.md R66 to R70). -/

namespace Sys2Proof

/-- Why a word is no command. Either way writing it to CMD is the error ILLEGAL_CMD (R69). -/
inductive DecodeReject where
  /-- RSVD, bits [31:8], is not 0. -/
  | rsvdNotZero
  /-- RSVD is 0 and OPCODE is not in the opcode map. -/
  | reservedOpcode
deriving DecidableEq, Repr

/-- `OPCODE = v[7:0]` (R66). -/
def opcodeField (v : Word) : Byte := v.extractLsb' 0 8

/-- `RSVD = v[31:8]` (R66). -/
def rsvdField (v : Word) : BitVec 24 := v.extractLsb' 8 24

/-- The opcode map, from opcode to command (R67). -/
def instrOfOpcode (op : Byte) : Option Instr :=
  match op.toNat with
  | 0x00 => some .nop
  | 0x01 => some .crc32
  | 0x02 => some .adler32
  | 0x10 => some .parse
  | 0x11 => some .serialize
  | 0x12 => some .ctClear
  | 0x13 => some .ctAppend
  | 0x14 => some .ctRead
  | 0x20 => some .reframe
  | 0x21 => some .decrush
  | _ => none

/-- The decoder, in the order of R66: RSVD first, then OPCODE. -/
def decode (v : Word) : Except DecodeReject Instr :=
  if rsvdField v ≠ 0 then .error .rsvdNotZero
  else match instrOfOpcode (opcodeField v) with
    | some i => .ok i
    | none => .error .reservedOpcode

/-- The opcode map, from command to opcode (R67). -/
def opcodeOf : Instr → Byte
  | .nop => 0x00
  | .crc32 => 0x01
  | .adler32 => 0x02
  | .parse => 0x10
  | .serialize => 0x11
  | .ctClear => 0x12
  | .ctAppend => 0x13
  | .ctRead => 0x14
  | .reframe => 0x20
  | .decrush => 0x21

/-- The command word of a command: RSVD 0 above its opcode (R66). -/
def encode (i : Instr) : Word := (0 : BitVec 24) ++ opcodeOf i

/-- What the decoder reads from a word numbered as the opcode table numbers it (bit 0 least significant). A command is
always exactly one 32-bit word (R70), so the row's bit count decides nothing and a wider number is no command (log 12). -/
def decodeTableWord (_nbits w : Nat) : Option Instr :=
  if w < 2 ^ 32 then
    match decode (BitVec.ofNat 32 w) with
    | .ok i => some i
    | .error _ => none
  else none

end Sys2Proof
end

