-- ==== Sys2Proof/Config.lean ====
section
/-! DEFINITION. The parameters of 00_scope.md R10 and the free values of the model: the DEFLATE codec with its laws
(42_reframer.md R96, R97) and the bytes of the buffers after reset (10_state.md R42). -/

namespace Sys2Proof

/-- The five uncompressed bytes of 95_test_vectors.md section 2.7. -/
def Config.vectorPlain : Bytes := [0x00, 0x11, 0x22, 0x33, 0x44]

/-- Their raw DEFLATE under the instance of 95_test_vectors.md section 0. -/
def Config.vectorPacked : Bytes := [0x63, 0x10, 0x54, 0x32, 0x76, 0x01, 0x00]

/-- The raw DEFLATE of the empty sequence under that instance. -/
def Config.emptyPacked : Bytes := [0x03, 0x00]

/-- An encoder that gives the bytes 95_test_vectors.md marks [instance] and puts 0x01 before any other input.
It is NOT DEFLATE: it serves tests and witnesses alone (log 2). -/
def Config.vectorDeflate (u : Bytes) : Bytes :=
  if u = [] then Config.emptyPacked
  else if u = Config.vectorPlain then Config.vectorPacked
  else 0x01 :: u

/-- The decoder of `Config.vectorDeflate`; it rejects whatever that encoder never gives. -/
def Config.vectorInflate (d : Bytes) : Option Bytes :=
  if d = Config.emptyPacked then some []
  else if d = Config.vectorPacked then some Config.vectorPlain
  else match d with
    | [] => none
    | b :: u => if b = 0x01 ∧ u ≠ [] ∧ u ≠ Config.vectorPlain then some u else none

theorem Config.vectorInflate_nil : Config.vectorInflate [] = none := by decide

theorem Config.vectorInflate_vectorDeflate (u : Bytes) :
    Config.vectorInflate (Config.vectorDeflate u) = some u := by
  by_cases h0 : u = []
  · subst h0; decide
  · by_cases h1 : u = Config.vectorPlain
    · subst h1; decide
    · simp [Config.vectorDeflate, Config.vectorInflate, Config.emptyPacked, Config.vectorPacked, h0, h1]

/-- The parameters `Inflate` and `Deflate` with the only laws a model may assume: both are total functions (I1, D1), I2
and I3 (R96, R97). The defaults are the witness that the laws can be met. -/
structure Codec where
  /-- `Inflate`: none means 'not valid DEFLATE'. -/
  inflate : Bytes → Option Bytes := Config.vectorInflate
  /-- `Deflate`. -/
  deflate : Bytes → Bytes := Config.vectorDeflate
  /-- Law I2. -/
  inflate_nil : inflate [] = none := by exact Config.vectorInflate_nil
  /-- Laws I3 and D2. -/
  inflate_deflate : ∀ u, inflate (deflate u) = some u := by exact Config.vectorInflate_vectorDeflate
deriving Inhabited

/-- FREE VALUE: the codec of the block, of which nothing but the laws is known (log 2). -/
opaque Config.freeCodec : Codec

/-- FREE VALUE: the byte the n-th reset leaves at an address of IBUF (R42, U1; log 3). -/
opaque Config.ibufDraw : (resetNumber address : Nat) → Byte

/-- FREE VALUE: the byte the n-th reset leaves at an address of OBUF (R42, U2; log 3). -/
opaque Config.obufDraw : (resetNumber address : Nat) → Byte

/-- Which codec a machine has, as plain data. -/
inductive CodecChoice where
  /-- The free codec: nothing but its laws is known. -/
  | free
  /-- The codec of the test vectors, for tests and witnesses. -/
  | vectors
deriving DecidableEq, Repr

def Config.codec : CodecChoice → Codec
  | .free => Config.freeCodec
  | .vectors =>
    { inflate := Config.vectorInflate
      deflate := Config.vectorDeflate
      inflate_nil := Config.vectorInflate_nil
      inflate_deflate := Config.vectorInflate_vectorDeflate }

/-- The parameters of R10. A model takes each one as an argument: State carries them, and no step writes them (log 1). -/
structure Params where
  ibufSize : Nat
  obufSize : Nat
  maxChunks : Nat
  ctabBytes : Nat
  scratchBytes : Nat
  codec : CodecChoice
deriving DecidableEq, Repr

/-- DESIGN CHOICE (log 1): the example sizes of 95_test_vectors.md section 0, with the free codec. -/
def Config.exampleParams : Params :=
  { ibufSize := 4096, obufSize := 4096, maxChunks := 64, ctabBytes := 4096, scratchBytes := 4096, codec := .free }

end Sys2Proof
end

