-- ==== Sys2Proof/Machine/HostSyntax.lean ====
section
/-! DEFINITION. What the world outside can do to the block: the register names (10_state.md R19), the bus transactions
(20_memory.md R48 to R52), the events a model steps through, and the lines of a host program (30_encoding.md R74, R75). -/

namespace Sys2Proof.Machine

/-- The mapped registers, by name (R19). -/
inductive Csr where
  | cmd | status | aOff | aLen | bOff | bLen | result | outLen | ctCount | ctIndex | ctTagLen | ctLen | ctDcrc | ctKind
deriving DecidableEq, Repr

/-- The five transactions of the host bus. An index is one of 0 to 255 (R45), a buffer address a u32 (R11, log 7). -/
inductive Txn where
  /-- R48. -/
  | csrRead (i : Byte)
  /-- R49. -/
  | csrWrite (i : Byte) (v : Word)
  /-- R50. -/
  | ibufWrite (a : Word) (b : Byte)
  /-- R51. -/
  | ibufRead (a : Word)
  /-- R52. -/
  | obufRead (a : Word)
deriving DecidableEq, Repr

/-- What can happen to the block from outside, one event a step (70_reset_and_hazards.md R126, R135). -/
inductive Event where
  /-- A transaction of the host. -/
  | bus (t : Txn)
  /-- A write strobe of the bus to the OBUF space, which has no effect (20_memory.md R53). -/
  | obufStrobe (a : Word) (b : Byte)
  /-- The platform asserts the reset input (R126). -/
  | reset
deriving DecidableEq, Repr

/-- What a read transaction returns to the host: a register's number or a buffer's byte (R61). -/
inductive Reply where
  | word (v : Word)
  | byte (b : Byte)
deriving DecidableEq, Repr

/-- NAME in a line of a host program: a register's name or a decimal index (R74). -/
inductive RegName where
  | named (r : Csr)
  | index (n : Nat)
deriving DecidableEq, Repr

/-- The lines of a host program with the numbers as they are written (R74), then the pseudo-lines (R75). -/
inductive HostLine where
  | wr (name : RegName) (v : Nat)
  | rd (name : RegName)
  | wib (a b : Nat)
  | rib (a : Nat)
  | rob (a : Nat)
  | cmd (i : Instr)
  | wibs (a : Nat) (bs : List Nat)
  | wibText (a : Nat) (text : List Char)
  | robs (a n : Nat)
  | regA (off n : Nat)
  | regB (off n : Nat)
  | clrErr
deriving DecidableEq, Repr

end Sys2Proof.Machine
end

