-- ==== Sys2Proof/Machine/State.lean ====
section
/-! DEFINITION. The state of the block (10_state.md R17 to R42), the reasons a step could stop, and the state after reset. -/

namespace Sys2Proof.Machine

/-- A buffer's bytes written since reset, as (address, byte) pairs in ONE form: addresses strictly rising. An address
that is not listed has not been written since reset and reads as its reset draw, a free value (log 3). -/
abbrev Memory := List Host.Cell

/-- The canonical form of a buffer: addresses strictly rising. -/
abbrev Memory.wf (m : Memory) : Prop := (m.map Prod.fst).Pairwise (· < ·)

/-- Every listed address lies below a buffer's size. -/
abbrev Memory.within (size : Nat) (m : Memory) : Prop := ∀ c ∈ m, c.1 < size

/-- A chunk record (00_scope.md R15); `dcrc` is the declared CRC as a number (R37). -/
structure Chunk where
  tag : Bytes
  data : Bytes
  dcrc : Word
deriving DecidableEq, Repr

/-- The classification of a tag (R35); it is never stored (R36). -/
inductive ChunkKind where
  | idat
  | cgbi
  | other
deriving DecidableEq, Repr

/-- The named error codes of 60_exceptions.md R111. -/
inductive Err where
  | illegalCmd
  | range
  | capacity
  | signature
  | framing
  | tagLength
  | missingMarker
  | codec
  /-- Reserved for the Pixel-Level Fixer, which is outside this block; never raised (R116). -/
  | unsupportedFormat
deriving DecidableEq, Repr

/-- The stored fields of STATUS (R21). Bits [30:9] have no storage and read 0. -/
structure Status where
  /-- Bits [7:0]. -/
  errCode : Byte
  /-- Bit [8]. -/
  err : Bool
  /-- Bit [31], sticky. -/
  errSeen : Bool
deriving DecidableEq, Repr

/-- Nothing in the spec stops this machine: an error is a completion recorded in STATUS (60_exceptions.md R110), and an
access outside a space never faults (20_memory.md R54). So there is no fault (log 9). -/
inductive Fault where
deriving DecidableEq, Repr

/-- Why a step is refused. -/
inductive Refusal where
  /-- Raised by an arm of `exec` whose instruction has no meaning yet; safe, since the machine stops. No arm of this model raises it. -/
  | notModelled (mnemonic : String)
deriving DecidableEq, Repr

/-- The registers, the chunk table and the buffers of the block (R17, R19); then the model's own fields. -/
structure State where
  /-- STATUS (R21). -/
  status : Status
  /-- A_OFF (R23). -/
  aOff : Word
  /-- A_LEN (R23). -/
  aLen : Word
  /-- B_OFF (R24). -/
  bOff : Word
  /-- B_LEN (R24). -/
  bLen : Word
  /-- RESULT (R25). -/
  result : Word
  /-- OUT_LEN (R26). -/
  outLen : Word
  /-- CT_INDEX (R28). -/
  ctIndex : Word
  /-- CT_TAGLEN (R29). -/
  ctTagLen : Word
  /-- CT_LEN (R30). -/
  ctLen : Word
  /-- CT_DCRC (R31). -/
  ctDcrc : Word
  /-- CT_KIND.KIND (R32). -/
  ctKind : BitVec 2
  /-- CTAB (R33). -/
  ctab : List Chunk
  /-- IBUF (R39): the bytes written since reset. -/
  ibuf : Memory
  /-- OBUF (R40): the bytes written since reset. -/
  obuf : Memory
  /-- The model's own: the parameters of 00_scope.md R10, which no step writes (log 1). -/
  params : Params
  /-- The model's own: how many resets have happened; it selects the draws of the buffers (log 4). -/
  resetCount : Nat
  /-- The model's own: what the host and the platform are still to do, next first (log 5). -/
  pending : List Event
  /-- The model's own: what the bus has returned to the host, oldest first (log 5). -/
  replies : List Reply
deriving DecidableEq, Repr

/-- The reset table of R42, for given parameters and the n-th reset. -/
def State.resetWith (p : Params) (n : Nat) : State :=
  { status := { errCode := 0x00, err := false, errSeen := false }
    aOff := 0, aLen := 0, bOff := 0, bLen := 0
    result := 0
    outLen := 0
    ctIndex := 0
    ctTagLen := 0, ctLen := 0, ctDcrc := 0, ctKind := 0
    ctab := []
    ibuf := [], obuf := []
    params := p
    resetCount := n
    pending := [], replies := [] }

/-- The machine right after its first reset, with the example parameters (log 1) and nothing pending (log 5). -/
def State.reset : State := State.resetWith Config.exampleParams 0

end Sys2Proof.Machine
end

