-- ==== Sys2Proof/Machine/Flags.lean ====
section
/-! DEFINITION. STATUS: the error codes (60_exceptions.md R111), what the completions and a host write do to the fields
(R112, R113; 10_state.md R22), and the register as a word (R21). -/

namespace Sys2Proof.Machine

/-- ERR_CODE of each named error (R111). -/
def Err.code : Err → Byte
  | .illegalCmd => 0x01
  | .range => 0x02
  | .capacity => 0x03
  | .signature => 0x10
  | .framing => 0x11
  | .tagLength => 0x12
  | .missingMarker => 0x20
  | .codec => 0x21
  | .unsupportedFormat => 0x30

/-- The fields after an error completion (R112). -/
def Status.afterError (e : Err) : Status := { errCode := e.code, err := true, errSeen := true }

/-- The fields after a success completion: ERR_SEEN keeps its value (R113). -/
def Status.afterSuccess (st : Status) : Status := { st with errCode := 0x00, err := false }

/-- A host write of v: bit 31 clears ERR_SEEN, every other bit is ignored (R22). -/
def Status.hostWrite (v : Word) (st : Status) : Status :=
  if v.getLsbD 31 then { st with errSeen := false } else st

/-- STATUS as the host reads it (R21). -/
def Status.word (st : Status) : Word :=
  BitVec.ofBool st.errSeen ++ (0 : BitVec 22) ++ BitVec.ofBool st.err ++ st.errCode

end Sys2Proof.Machine
end

