-- ==== Sys2Proof/Machine/Ops.lean ====
section
/-! DEFINITION. The shared operations: byte order of stream integers, the buffers, the control registers, the two
completions of a command, and the reset event. -/

namespace Sys2Proof.Machine

/-! ## Byte order of stream integers (00_scope.md R13, 20_memory.md R55) -/

/-- `be32(v)`: most significant byte first. -/
def be32 (v : Word) : Bytes := [v.extractLsb' 24 8, v.extractLsb' 16 8, v.extractLsb' 8 8, v.extractLsb' 0 8]

/-- `rd_be32(s)`, an unbounded natural, for a 4-byte s. -/
def rdBe32 (s : Bytes) : Nat := s.foldl (fun n b => n * 2 ^ 8 + b.toNat) 0

/-- A count as a 32-bit register or length field holds it (log 8). -/
def wordOfNat (n : Nat) : Word := BitVec.ofNat 32 n

/-! ## Buffers -/

/-- The byte written last at an address, if one was written since reset. -/
def Memory.byteAt? : Memory → Nat → Option Byte
  | [], _ => none
  | (k, v) :: m, a => if a = k then some v else Memory.byteAt? m a

/-- Writes one byte, keeping the addresses strictly rising. -/
def Memory.put : Memory → Nat → Byte → Memory
  | [], a, b => [(a, b)]
  | (k, v) :: m, a, b =>
    if a < k then (a, b) :: (k, v) :: m
    else if a = k then (a, b) :: m
    else (k, v) :: Memory.put m a b

/-- `MemWrite(_, a, s)` (R14): the bytes of s at a and the addresses after it. -/
def Memory.putBytes (m : Memory) (a : Nat) : Bytes → Memory
  | [] => m
  | b :: bs => Memory.putBytes (Memory.put m a b) (a + 1) bs

/-- IBUF[a]: the byte written last, or the draw of the last reset (10_state.md R39, R42). -/
def ibufByte (s : State) (a : Nat) : Byte := (Memory.byteAt? s.ibuf a).getD (Config.ibufDraw s.resetCount a)

/-- OBUF[a]: the byte written last, or the draw of the last reset (10_state.md R40, R42). -/
def obufByte (s : State) (a : Nat) : Byte := (Memory.byteAt? s.obuf a).getD (Config.obufDraw s.resetCount a)

/-- `MemRead(IBUF, a, n)` (R14). -/
def ibufBytes (s : State) (a : Nat) : Nat → Bytes
  | 0 => []
  | n + 1 => ibufByte s a :: ibufBytes s (a + 1) n

/-- `MemRead(OBUF, a, n)` (R14). -/
def obufBytes (s : State) (a : Nat) : Nat → Bytes
  | 0 => []
  | n + 1 => obufByte s a :: obufBytes s (a + 1) n

/-- The value IbufRead returns: 0 at or beyond IBUF_SIZE (20_memory.md R51). -/
def ibufRead (s : State) (a : Word) : Byte := if a.toNat < s.params.ibufSize then ibufByte s a.toNat else 0

/-- The value ObufRead returns: 0 at or beyond OBUF_SIZE (20_memory.md R52). -/
def obufRead (s : State) (a : Word) : Byte := if a.toNat < s.params.obufSize then obufByte s a.toNat else 0

/-- IbufWrite: ignored at or beyond IBUF_SIZE (20_memory.md R50). -/
def ibufWrite (a : Word) (b : Byte) (s : State) : State :=
  if a.toNat < s.params.ibufSize then { s with ibuf := Memory.put s.ibuf a.toNat b } else s

/-- The output of SERIALIZE, CT_READ and REFRAME: the bytes at OBUF 0 on and their number in OUT_LEN (10_state.md R26, R40). -/
def writeOutput (o : Bytes) (s : State) : State :=
  { s with obuf := Memory.putBytes s.obuf 0 o, outLen := wordOfNat o.length }

/-! ## Control registers -/

/-- The register an index names (10_state.md R19); none for the unmapped indices 14 to 255. -/
def csrOfIndex (i : Byte) : Option Csr :=
  match i.toNat with
  | 0 => some .cmd
  | 1 => some .status
  | 2 => some .aOff
  | 3 => some .aLen
  | 4 => some .bOff
  | 5 => some .bLen
  | 6 => some .result
  | 7 => some .outLen
  | 8 => some .ctCount
  | 9 => some .ctIndex
  | 10 => some .ctTagLen
  | 11 => some .ctLen
  | 12 => some .ctDcrc
  | 13 => some .ctKind
  | _ => none

/-- The value of a mapped register as the host reads it (R19 to R32): CMD reads 0, CT_COUNT is a view of CTAB. -/
def csrValue (s : State) : Csr → Word
  | .cmd => 0
  | .status => s.status.word
  | .aOff => s.aOff
  | .aLen => s.aLen
  | .bOff => s.bOff
  | .bLen => s.bLen
  | .result => s.result
  | .outLen => s.outLen
  | .ctCount => wordOfNat s.ctab.length
  | .ctIndex => s.ctIndex
  | .ctTagLen => s.ctTagLen
  | .ctLen => s.ctLen
  | .ctDcrc => s.ctDcrc
  | .ctKind => s.ctKind.setWidth 32

/-- The value CsrRead returns: 0 for an unmapped index (20_memory.md R48, R54). -/
def csrRead (s : State) (i : Byte) : Word :=
  match csrOfIndex i with
  | some r => csrValue s r
  | none => 0

/-- What a host write does to a register other than CMD (20_memory.md R49): RW registers store, STATUS clears ERR_SEEN, RO
registers ignore it. CMD stores nothing. -/
def csrStore (r : Csr) (v : Word) (s : State) : State :=
  match r with
  | .cmd => s
  | .status => { s with status := s.status.hostWrite v }
  | .aOff => { s with aOff := v }
  | .aLen => { s with aLen := v }
  | .bOff => { s with bOff := v }
  | .bLen => { s with bLen := v }
  | .result => s
  | .outLen => s
  | .ctCount => s
  | .ctIndex => { s with ctIndex := v }
  | .ctTagLen => s
  | .ctLen => s
  | .ctDcrc => s
  | .ctKind => s

/-! ## Completions (60_exceptions.md R112, R113) -/

/-- The error completion: STATUS alone is written. This is the block's whole way of taking an exception (R110, R118). -/
def errorCompletion (e : Err) (s : State) : State := { s with status := Status.afterError e }

/-- The success completion, on the state that already holds the command's results. -/
def successCompletion (s : State) : State := { s with status := s.status.afterSuccess }

/-- How a command ends: `r` is the state with its results, or the first error its rule raised (R114); on an error every
result is discarded. -/
def complete (s : State) (r : Except Err State) : Host.Outcome State Fault Refusal :=
  match r with
  | .ok t => .next (successCompletion t)
  | .error e => .next (errorCompletion e s)

/-! ## Events -/

/-- The bus returns a value to the host. -/
def answer (r : Reply) (s : State) : State := { s with replies := s.replies ++ [r] }

/-- A reset: every piece of the block's state takes its reset value, the buffers take fresh draws; the parameters and the
host's own lists are not the block's and stay (70_reset_and_hazards.md R126 to R128; log 4, log 5). -/
def applyReset (s : State) : State :=
  { State.resetWith s.params (s.resetCount + 1) with pending := s.pending, replies := s.replies }

/-- The next event, and the state in which it is performed. -/
def nextEvent (s : State) : Option (Event × State) :=
  match s.pending with
  | [] => none
  | e :: rest => some (e, { s with pending := rest })

/-- Puts an event before all that is pending. -/
def pushEvent (e : Event) (s : State) : State := { s with pending := e :: s.pending }

/-- With nothing pending the engine waits: it takes no step of its own (00_scope.md R9; R129; log 6). -/
def idle (s : State) : State := s

end Sys2Proof.Machine
end

