-- ==== Sys2Proof/Machine/Operands.lean ====
section
/-! DEFINITION. The region operands of a command (30_encoding.md R71 to R73). -/

namespace Sys2Proof.Machine

/-- `region(off, n)`: the sum is of unbounded naturals, so it never wraps (R71). -/
def region (s : State) (off n : Word) : Except Err Bytes :=
  if off.toNat + n.toNat > s.params.ibufSize then .error .range
  else .ok (ibufBytes s off.toNat n.toNat)

/-- Region A: the tag or prefix. -/
def regionA (s : State) : Except Err Bytes := region s s.aOff s.aLen

/-- Region B: the data. -/
def regionB (s : State) : Except Err Bytes := region s s.bOff s.bLen

/-- Both regions, A checked before B (R73). -/
def regionsAB (s : State) : Except Err (Bytes × Bytes) :=
  match regionA s with
  | .error e => .error e
  | .ok ta =>
    match regionB s with
    | .error e => .error e
    | .ok tb => .ok (ta, tb)

end Sys2Proof.Machine
end

