-- ==== Sys2Proof/Machine/Checksum.lean ====
section
/-! DEFINITION. The CRC-32 engine: the two checksum functions (40_checksum.md R76 to R80) and NOP, CRC32, ADLER32 (R81 to R83). -/

namespace Sys2Proof.Machine

/-- One turn of the inner loop of R76. -/
def crcBit (c : Word) : Word := if c.getLsbD 0 then (c >>> 1) ^^^ 0xEDB88320 else c >>> 1

/-- `n` turns of the inner loop. -/
def crcBits : Nat → Word → Word
  | 0, c => c
  | n + 1, c => crcBits n (crcBit c)

/-- One byte of the outer loop: exclusive OR at the low end, then 8 turns. -/
def crcByte (c : Word) (b : Byte) : Word := crcBits 8 (c ^^^ b.setWidth 32)

/-- `crc32(M)` (R76). -/
def crc32 (m : Bytes) : Word := m.foldl crcByte 0xFFFFFFFF ^^^ 0xFFFFFFFF

/-- One byte of the two running sums (a, b) modulo 65521 (R79). -/
def adlerByte (p : Nat × Nat) (x : Byte) : Nat × Nat :=
  ((p.1 + x.toNat) % 65521, (p.2 + (p.1 + x.toNat) % 65521) % 65521)

/-- The two sums after all of M. -/
def adlerSums (m : Bytes) : Nat × Nat := m.foldl adlerByte (1, 0)

/-- `adler32(M)` (R79): b in bits [31:16], a in bits [15:0]. -/
def adler32 (m : Bytes) : Word := wordOfNat ((adlerSums m).2 * 65536 + (adlerSums m).1)

/-- A checksum of region A followed by region B, into RESULT. -/
def checksumCommand (f : Bytes → Word) (s : State) : Except Err State :=
  match regionsAB s with
  | .error e => .error e
  | .ok (ta, tb) => .ok { s with result := f (ta ++ tb) }

/-- NOP (R81). -/
def execNop (s : State) : Host.Outcome State Fault Refusal := complete s (.ok s)

/-- CRC32 (R82). -/
def execCrc32 (s : State) : Host.Outcome State Fault Refusal := complete s (checksumCommand crc32 s)

/-- ADLER32 (R83). -/
def execAdler32 (s : State) : Host.Outcome State Fault Refusal := complete s (checksumCommand adler32 s)

end Sys2Proof.Machine
end

