-- ==== Sys2Proof/Machine/ChunkCodec.lean ====
section
/-! DEFINITION. The chunk codec: tags and capacity (10_state.md R34, R35), the container format, parse and serialize
(41_chunk_codec.md R84 to R90), and PARSE, SERIALIZE, CT_CLEAR, CT_APPEND, CT_READ (R91 to R95). -/

namespace Sys2Proof.Machine

/-- The bytes of "IDAT". -/
def tagIdat : Bytes := [0x49, 0x44, 0x41, 0x54]

/-- The bytes of "CgBI". -/
def tagCgbi : Bytes := [0x43, 0x67, 0x42, 0x49]

/-- `kind(tag)`: exact comparison of the whole tag (R35). -/
def kind (tag : Bytes) : ChunkKind :=
  if tag = tagIdat then .idat else if tag = tagCgbi then .cgbi else .other

/-- The code CT_KIND holds for a kind (R32). -/
def kindCode : ChunkKind → BitVec 2
  | .other => 0
  | .idat => 1
  | .cgbi => 2

/-- The tag and data bytes of one record. -/
def chunkBytes (c : Chunk) : Nat := c.tag.length + c.data.length

/-- `ctab_bytes(cs)` (R34). -/
def ctabBytes (cs : List Chunk) : Nat := (cs.map chunkBytes).sum

/-- Both capacity bounds of CTAB (R34). -/
def fitsCtab (p : Params) (cs : List Chunk) : Bool :=
  decide (cs.length ≤ p.maxChunks) && decide (ctabBytes cs ≤ p.ctabBytes)

/-- A record with the fresh CRC of its tag and data (R37). -/
def freshChunk (tag data : Bytes) : Chunk := { tag := tag, data := data, dcrc := crc32 (tag ++ data) }

/-- `SIG` (R84). -/
def sig : Bytes := [0x89, 0x50, 0x4E, 0x47, 0x0D, 0x0A, 0x1A, 0x0A]

/-- The loop of `parse` on what is left of the stream. The first argument bounds the turns: a turn takes at least 12
bytes, so the number of bytes left is always enough (R85, R134; log 12). -/
def parseRecords : Nat → Bytes → Except Err (List Chunk)
  | 0, s => if s = [] then .ok [] else .error .framing
  | fuel + 1, s =>
    if s = [] then .ok []
    else if s.length < 8 then .error .framing
    else if (s.drop 8).length < rdBe32 (s.take 4) + 4 then .error .framing
    else
      match parseRecords fuel ((s.drop 8).drop (rdBe32 (s.take 4) + 4)) with
      | .error e => .error e
      | .ok cs =>
        .ok ({ tag := (s.drop 4).take 4
               data := (s.drop 8).take (rdBe32 (s.take 4))
               dcrc := wordOfNat (rdBe32 (((s.drop 8).drop (rdBe32 (s.take 4))).take 4)) } :: cs)

/-- `parse(s)` (R85). -/
def parse (s : Bytes) : Except Err (List Chunk) :=
  if s.length < 8 ∨ s.take 8 ≠ sig then .error .signature
  else parseRecords s.length (s.drop 8)

/-- One record of the output, with the CRC computed afresh (R88, R89). -/
def recordBytes (c : Chunk) : Bytes :=
  be32 (wordOfNat c.data.length) ++ c.tag ++ c.data ++ be32 (crc32 (c.tag ++ c.data))

/-- `serialize(cs)`: every tag is checked before any byte is produced (R88). -/
def serialize (cs : List Chunk) : Except Err Bytes :=
  if cs.all (fun c => c.tag.length == 4) then .ok (sig ++ cs.flatMap recordBytes)
  else .error .tagLength

/-- The rule of PARSE (R91). -/
def parseCommand (s : State) : Except Err State :=
  match regionB s with
  | .error e => .error e
  | .ok stream =>
    match parse stream with
    | .error e => .error e
    | .ok cs => if fitsCtab s.params cs then .ok { s with ctab := cs } else .error .capacity

/-- The rule of SERIALIZE (R92). -/
def serializeCommand (s : State) : Except Err State :=
  match serialize s.ctab with
  | .error e => .error e
  | .ok o => if o.length > s.params.obufSize then .error .capacity else .ok (writeOutput o s)

/-- The rule of CT_APPEND (R94). -/
def appendCommand (s : State) : Except Err State :=
  match regionsAB s with
  | .error e => .error e
  | .ok (t, d) =>
    if fitsCtab s.params (s.ctab ++ [freshChunk t d]) then .ok { s with ctab := s.ctab ++ [freshChunk t d] }
    else .error .capacity

/-- What CT_READ writes for the record it reads (R95). -/
def readRecord (c : Chunk) (s : State) : State :=
  { writeOutput (c.tag ++ c.data) s with
    ctTagLen := wordOfNat c.tag.length
    ctLen := wordOfNat c.data.length
    ctDcrc := c.dcrc
    ctKind := kindCode (kind c.tag) }

/-- The rule of CT_READ (R95). -/
def readCommand (s : State) : Except Err State :=
  match s.ctab[s.ctIndex.toNat]? with
  | none => .error .range
  | some c => if chunkBytes c > s.params.obufSize then .error .capacity else .ok (readRecord c s)

/-- PARSE (R91). -/
def execParse (s : State) : Host.Outcome State Fault Refusal := complete s (parseCommand s)

/-- SERIALIZE (R92). -/
def execSerialize (s : State) : Host.Outcome State Fault Refusal := complete s (serializeCommand s)

/-- CT_CLEAR (R93). -/
def execCtClear (s : State) : Host.Outcome State Fault Refusal := complete s (.ok { s with ctab := [] })

/-- CT_APPEND (R94). -/
def execCtAppend (s : State) : Host.Outcome State Fault Refusal := complete s (appendCommand s)

/-- CT_READ (R95). -/
def execCtRead (s : State) : Host.Outcome State Fault Refusal := complete s (readCommand s)

end Sys2Proof.Machine
end

