-- ==== Sys2Proof/Machine/Reframer.lean ====
section
/-! DEFINITION. The DEFLATE-to-zlib reframer: the zlib envelope (42_reframer.md R98, R99), the decrush transform (R100 to
R106), and REFRAME, DECRUSH (R108, R109). -/

namespace Sys2Proof.Machine

/-- `ZHDR` (R98). -/
def zhdr : Bytes := [0x78, 0x9C]

/-- `zwrap(u)` (R99). -/
def zwrap (k : Codec) (u : Bytes) : Bytes := zhdr ++ k.deflate u ++ be32 (adler32 u)

/-- `markers(cs)` (R100). -/
def markers (cs : List Chunk) : List Chunk := cs.filter (fun c => kind c.tag == .cgbi)

/-- `idats(cs)` (R100). -/
def idats (cs : List Chunk) : List Chunk := cs.filter (fun c => kind c.tag == .idat)

/-- The records that are neither, in order (R100). -/
def others (cs : List Chunk) : List Chunk := cs.filter (fun c => kind c.tag == .other)

/-- `D`: the IDAT payloads as one buffer (R102). -/
def idatData (cs : List Chunk) : Bytes := (idats cs).flatMap Chunk.data

/-- `ceil(a / b)` for b ≥ 1 (R12). -/
def ceilDiv (a b : Nat) : Nat := (a + b - 1) / b

/-- `split(N, K)`: K piece lengths, each the ceiling of what remains over the pieces that remain (R103; for K = 0,
which no command asks for, see log 12). -/
def split : Nat → Nat → List Nat
  | _, 0 => []
  | r, k + 1 => min (ceilDiv r (k + 1)) r :: split (r - min (ceilDiv r (k + 1)) r) k

/-- The consecutive pieces of a buffer (R103). -/
def pieces (z : Bytes) : List Nat → List Bytes
  | [] => []
  | n :: ns => z.take n :: pieces (z.drop n) ns

/-- `newidats(Z, K)` (R104). -/
def newIdats (z : Bytes) (k : Nat) : List Chunk := (pieces z (split z.length k)).map (freshChunk tagIdat)

/-- The walk of `reassemble` from a record on; the flag is `inserted` (R105). -/
def reassembleFrom (new : List Chunk) : Bool → List Chunk → List Chunk
  | _, [] => []
  | inserted, c :: cs =>
    match kind c.tag with
    | .cgbi => reassembleFrom new inserted cs
    | .idat => if inserted then reassembleFrom new true cs else new ++ reassembleFrom new true cs
    | .other => c :: reassembleFrom new inserted cs

/-- `reassemble(cs, new)` (R105). -/
def reassemble (cs new : List Chunk) : List Chunk := reassembleFrom new false cs

/-- The table after decrush, given the inflated stream u (R106). -/
def decrushed (k : Codec) (cs : List Chunk) (u : Bytes) : List Chunk :=
  reassemble cs (newIdats (zwrap k u) (idats cs).length)

/-- `decrush(cs)`: the checks in the order of R106. -/
def decrush (k : Codec) (p : Params) (cs : List Chunk) : Except Err (List Chunk) :=
  if markers cs = [] then .error .missingMarker
  else if idatData cs = [] then .error .codec
  else
    match k.inflate (idatData cs) with
    | none => .error .codec
    | some u =>
      if u.length > p.scratchBytes then .error .capacity
      else if (zwrap k u).length > p.scratchBytes then .error .capacity
      else if ctabBytes (decrushed k cs u) > p.ctabBytes then .error .capacity
      else .ok (decrushed k cs u)

/-- The zlib stream REFRAME puts out for region B, with its checks but the last (R108). -/
def reframe (k : Codec) (p : Params) (d : Bytes) : Except Err Bytes :=
  if d = [] then .error .codec
  else
    match k.inflate d with
    | none => .error .codec
    | some u => if u.length > p.scratchBytes then .error .capacity else .ok (zwrap k u)

/-- The codec of this machine. -/
abbrev codecOf (s : State) : Codec := Config.codec s.params.codec

/-- The rule of REFRAME (R108). -/
def reframeCommand (s : State) : Except Err State :=
  match regionB s with
  | .error e => .error e
  | .ok d =>
    match reframe (codecOf s) s.params d with
    | .error e => .error e
    | .ok z => if z.length > s.params.obufSize then .error .capacity else .ok (writeOutput z s)

/-- The rule of DECRUSH (R109). -/
def decrushCommand (s : State) : Except Err State :=
  match decrush (codecOf s) s.params s.ctab with
  | .error e => .error e
  | .ok out => .ok { s with ctab := out }

/-- REFRAME (R108). -/
def execReframe (s : State) : Host.Outcome State Fault Refusal := complete s (reframeCommand s)

/-- DECRUSH (R109). -/
def execDecrush (s : State) : Host.Outcome State Fault Refusal := complete s (decrushCommand s)

end Sys2Proof.Machine
end

