-- ==== Sys2Proof/Machine/Dispatch.lean ====
section
/-! DEFINITION. One arm per command: each calls the meaning its family file gives it. -/

namespace Sys2Proof.Machine

def exec (i : Instr) (s : State) : Host.Outcome State Fault Refusal :=
  match i with
  | .nop => Sys2Proof.Machine.execNop s
  | .crc32 => Sys2Proof.Machine.execCrc32 s
  | .adler32 => Sys2Proof.Machine.execAdler32 s
  | .parse => Sys2Proof.Machine.execParse s
  | .serialize => Sys2Proof.Machine.execSerialize s
  | .ctClear => Sys2Proof.Machine.execCtClear s
  | .ctAppend => Sys2Proof.Machine.execCtAppend s
  | .ctRead => Sys2Proof.Machine.execCtRead s
  | .reframe => Sys2Proof.Machine.execReframe s
  | .decrush => Sys2Proof.Machine.execDecrush s

end Sys2Proof.Machine
end

