-- ==== Sys2Proof/Machine/Bus.lean ====
section
/-! DEFINITION. The host bus: a command word written to CMD (30_encoding.md R66), the five transactions (20_memory.md R48
to R54), and the events of a step. -/

namespace Sys2Proof.Machine

/-- Writing v to CMD: decode, then the command's rule; a reserved word is ILLEGAL_CMD (R66, R69). -/
def runCommand (v : Word) (s : State) : Host.Outcome State Fault Refusal :=
  match decode v with
  | .ok i => exec i s
  | .error _ => .next (errorCompletion .illegalCmd s)

/-- `CsrWrite(i, v)` (R49). -/
def csrWrite (i : Byte) (v : Word) (s : State) : Host.Outcome State Fault Refusal :=
  match csrOfIndex i with
  | some .cmd => runCommand v s
  | some r => .next (csrStore r v s)
  | none => .next s

/-- One transaction of the host (R48 to R52). -/
def performTxn (t : Txn) (s : State) : Host.Outcome State Fault Refusal :=
  match t with
  | .csrRead i => .next (answer (.word (csrRead s i)) s)
  | .csrWrite i v => csrWrite i v s
  | .ibufWrite a b => .next (ibufWrite a b s)
  | .ibufRead a => .next (answer (.byte (ibufRead s a)) s)
  | .obufRead a => .next (answer (.byte (obufRead s a)) s)

/-- One event. A write strobe to OBUF has no effect (R53). -/
def perform (e : Event) (s : State) : Host.Outcome State Fault Refusal :=
  match e with
  | .bus t => performTxn t s
  | .obufStrobe _ _ => .next s
  | .reset => .next (applyReset s)

/-- The event that writes a command word to CMD. -/
def commandEvent (v : Word) : Event := .bus (.csrWrite 0 v)

end Sys2Proof.Machine
end

