-- ==== Sys2Proof/Machine/Step.lean ====
section
/-! DEFINITION. One step: the next host transaction or reset (70_reset_and_hazards.md R135). -/

namespace Sys2Proof.Machine

/-- Performs the next pending event; with none pending the engine waits (log 6). -/
def step (s : State) : Host.Outcome State Fault Refusal :=
  match nextEvent s with
  | none => .next (idle s)
  | some (e, s') => perform e s'

/-- `s` with a write of the command word `w` to CMD as its next event (log 5). -/
def State.withFetchWord (s : State) (_nbits w : Nat) : State := pushEvent (commandEvent (BitVec.ofNat 32 w)) s

end Sys2Proof.Machine
end

