-- ==== Sys2Proof/Machine/HostProgram.lean ====
section
/-! DEFINITION. What the lines of a host program stand for (30_encoding.md R74, R75). -/

namespace Sys2Proof.Machine

/-- The index of a register (10_state.md R19). -/
def csrIndex : Csr → Nat
  | .cmd => 0
  | .status => 1
  | .aOff => 2
  | .aLen => 3
  | .bOff => 4
  | .bLen => 5
  | .result => 6
  | .outLen => 7
  | .ctCount => 8
  | .ctIndex => 9
  | .ctTagLen => 10
  | .ctLen => 11
  | .ctDcrc => 12
  | .ctKind => 13

/-- `index(NAME)` (R74). -/
def indexOfName : RegName → Byte
  | .named r => BitVec.ofNat 8 (csrIndex r)
  | .index n => BitVec.ofNat 8 n

/-- `wib a, b0 b1 ...`: one write a byte, at rising addresses (R75). -/
def wibTxns (a : Nat) : List Nat → List Txn
  | [] => []
  | b :: bs => .ibufWrite (wordOfNat a) (BitVec.ofNat 8 b) :: wibTxns (a + 1) bs

/-- `rob a, n` (R75). -/
def robTxns (a : Nat) : Nat → List Txn
  | 0 => []
  | n + 1 => .obufRead (wordOfNat a) :: robTxns (a + 1) n

/-- A write to a named register. -/
def wrTxn (r : Csr) (v : Nat) : Txn := .csrWrite (BitVec.ofNat 8 (csrIndex r)) (wordOfNat v)

/-- The transactions of a line: R74 for the first five forms, the expansions of R75 for the rest. -/
def expandLine : HostLine → List Txn
  | .wr name v => [.csrWrite (indexOfName name) (wordOfNat v)]
  | .rd name => [.csrRead (indexOfName name)]
  | .wib a b => [.ibufWrite (wordOfNat a) (BitVec.ofNat 8 b)]
  | .rib a => [.ibufRead (wordOfNat a)]
  | .rob a => [.obufRead (wordOfNat a)]
  | .cmd i => [wrTxn .cmd (opcodeOf i).toNat]
  | .wibs a bs => wibTxns a bs
  | .wibText a text => wibTxns a (text.map Char.toNat)
  | .robs a n => robTxns a n
  | .regA off n => [wrTxn .aOff off, wrTxn .aLen n]
  | .regB off n => [wrTxn .bOff off, wrTxn .bLen n]
  | .clrErr => [wrTxn .status 0x80000000]

/-- A host program as the events of a run, in order. -/
def expandProgram (p : List HostLine) : List Event := (p.flatMap expandLine).map Event.bus

/-- The state with a host program still to come after what is pending. -/
def loadProgram (p : List HostLine) (s : State) : State := { s with pending := s.pending ++ expandProgram p }

end Sys2Proof.Machine
end

