-- ==== Sys2Proof/Safety.lean ====
section
/-! DEFINITION. What counts as a safe step and a safe host (93_implementation_defined.md U7 to U10): the invariant of the
block's state, and the transactions the spec stands behind. -/

namespace Sys2Proof.Machine

/-- The codes STATUS.ERR_CODE may hold: those of R111 but the reserved 0x30 (R21, R116). -/
def legalCode (c : Byte) : Bool :=
  [0x00, 0x01, 0x02, 0x03, 0x10, 0x11, 0x12, 0x20, 0x21].contains c.toNat

/-- STATUS holds a legal code, and ERR says whether it is not 0 (R21). -/
abbrev StatusLegal (s : State) : Prop := legalCode s.status.errCode = true ∧ (s.status.err = true ↔ s.status.errCode ≠ 0)

/-- The capacity invariant of CTAB (R34). -/
abbrev CtabFits (s : State) : Prop :=
  s.ctab.length ≤ s.params.maxChunks ∧ ctabBytes s.ctab ≤ s.params.ctabBytes

/-- Both buffers are in canonical form and lie inside their sizes (R39, R40). -/
abbrev BuffersOk (s : State) : Prop :=
  Memory.wf s.ibuf ∧ Memory.wf s.obuf ∧ Memory.within s.params.ibufSize s.ibuf ∧ Memory.within s.params.obufSize s.obuf

/-- OUT_LEN names bytes of OBUF (R26), and KIND is one of its three codes (R32). -/
abbrev OutputOk (s : State) : Prop := s.outLen.toNat ≤ s.params.obufSize ∧ s.ctKind ≠ 3

/-- The transactions a claim about a run may rest on: mapped indices, writes to writable registers, addresses inside their
buffer. The model performs the others as D20 decides; a real implementation might answer with a bus error (U8, U9). -/
def promised (p : Params) : Event → Bool
  | .bus (.csrRead i) => decide (i.toNat ≤ 13)
  | .bus (.csrWrite i _) => [0, 1, 2, 3, 4, 5, 9].contains i.toNat
  | .bus (.ibufWrite a _) => decide (a.toNat < p.ibufSize)
  | .bus (.ibufRead a) => decide (a.toNat < p.ibufSize)
  | .bus (.obufRead a) => decide (a.toNat < p.obufSize)
  | .obufStrobe _ _ => false
  | .reset => true

/-- A step that neither faults nor is refused. -/
abbrev Steps (s : State) : Prop := ∃ t, step s = .next t

end Sys2Proof.Machine
end

