-- ==== Sys2Proof/WellFormed.lean ====
section
/-! DEFINITION. Well-formedness: of a command, of the parameters (00_scope.md R10) and of a line of a host program
(30_encoding.md R74). -/

namespace Sys2Proof

/-- Every command is well formed: it has no operand that could be out of range (30_encoding.md R71). -/
def Instr.wellFormed : Instr → Bool
  | .nop | .crc32 | .adler32 | .parse | .serialize | .ctClear | .ctAppend | .ctRead | .reframe | .decrush => true

/-- A size lies between 1 and 2^32 - 1 (R10). -/
def sizeOk (n : Nat) : Bool := decide (1 ≤ n ∧ n ≤ 2 ^ 32 - 1)

/-- The constraints of R10. -/
def Params.wellFormed (p : Params) : Bool :=
  sizeOk p.ibufSize && sizeOk p.obufSize && sizeOk p.maxChunks && sizeOk p.ctabBytes && sizeOk p.scratchBytes

namespace Machine

/-- The number is a u32. -/
def isU32 (n : Nat) : Bool := decide (n < 2 ^ 32)

/-- An address and the ones after it are u32s, `n` in all; the first is a u32 even where `n` is 0 (log 7). -/
def isSpan (a n : Nat) : Bool := isU32 a && decide (a + n ≤ 2 ^ 32)

/-- A decimal index is from 0 to 255 (R74). -/
def RegName.wellFormed : RegName → Bool
  | .named _ => true
  | .index n => decide (n ≤ 255)

/-- Every number of a line fits the transaction it is put into; a text is ASCII (R74, R75). -/
def HostLine.wellFormed : HostLine → Bool
  | .wr name v => name.wellFormed && isU32 v
  | .rd name => name.wellFormed
  | .wib a b => isU32 a && decide (b ≤ 255)
  | .rib a => isU32 a
  | .rob a => isU32 a
  | .cmd _ => true
  | .wibs a bs => isSpan a bs.length && bs.all (fun b => decide (b ≤ 255))
  | .wibText a text => isSpan a text.length && text.all (fun c => decide (c.toNat < 128))
  | .robs a n => isSpan a n
  | .regA off n => isU32 off && isU32 n
  | .regB off n => isU32 off && isU32 n
  | .clrErr => true

end Machine
end Sys2Proof
end

