-- ==== Sys2Proof/Certificates/Slice0/Obligations.lean ====
section
/-! DEFINITION. The statements for the provers, from the numbered rules of spec/. -/

open Sys2Proof Sys2Proof.Machine

namespace Sys2Proof.Claims

/-! ## Words the statements share -/

/-- Region A lies inside IBUF (30_encoding.md R71). -/
abbrev AInIbuf (s : State) : Prop := s.aOff.toNat + s.aLen.toNat ≤ s.params.ibufSize

/-- Region B lies inside IBUF. -/
abbrev BInIbuf (s : State) : Prop := s.bOff.toNat + s.bLen.toNat ≤ s.params.ibufSize

/-- The bytes of IBUF that region A names. -/
abbrev aBytes (s : State) : Bytes := ibufBytes s s.aOff.toNat s.aLen.toNat

/-- The bytes of IBUF that region B names. -/
abbrev bBytes (s : State) : Bytes := ibufBytes s s.bOff.toNat s.bLen.toNat

/-- STATUS after a success completion from s (60_exceptions.md R113). -/
abbrev succeeded (s : State) : Status := ⟨0x00, false, s.status.errSeen⟩

/-- STATUS after an error completion with a code (R112). -/
abbrev failed (code : Byte) : Status := ⟨code, true, true⟩

/-- The command ends with an error code and changes STATUS alone (R112). -/
abbrev FailsWith (i : Instr) (s : State) (code : Byte) : Prop := exec i s = .next { s with status := failed code }

/-- From s to t, `o` was written to OBUF from address 0 on, OUT_LEN tells its length, and every other byte of OBUF reads
as before (10_state.md R26, R40). -/
abbrev WroteOutput (o : Bytes) (s t : State) : Prop :=
  t.outLen = wordOfNat o.length ∧ obufBytes t 0 o.length = o ∧ ∀ a, o.length ≤ a → obufByte t a = obufByte s a

/-- A record a chunk stream can carry (41_chunk_codec.md R84). -/
abbrev Representable (c : Chunk) : Prop := c.tag.length = 4 ∧ c.data.length < 2 ^ 32

/-- A record of a chunk stream with its declared CRC (R84). -/
def declaredRecord (c : Chunk) : Bytes :=
  be32 (wordOfNat c.data.length) ++ c.tag ++ c.data ++ be32 c.dcrc

/-- The record with the fresh CRC of its tag and data in place of its declared one. -/
def freshened (c : Chunk) : Chunk := { c with dcrc := crc32 (c.tag ++ c.data) }

/-- The declared CRC is valid. -/
abbrev ValidCrc (c : Chunk) : Prop := c.dcrc = crc32 (c.tag ++ c.data)

/-- The outcome with a change made to its next state. -/
def mapNext (f : State → State) : Host.Outcome State Fault Refusal → Host.Outcome State Fault Refusal
  | .next t => .next (f t)
  | .fault r => .fault r
  | .refused r => .refused r

/-- The region A registers replaced. -/
def setRegionA (off n : Word) (s : State) : State := { s with aOff := off, aLen := n }

/-- The region B registers replaced. -/
def setRegionB (off n : Word) (s : State) : State := { s with bOff := off, bLen := n }

/-- The buffers' reset draws replaced by those of another reset. -/
def setDraws (n : Nat) (s : State) : State := { s with resetCount := n }

/-- Every byte of IBUF from `off` for `n` bytes was written since reset. -/
def Written (s : State) (off n : Word) : Prop :=
  ∀ a, off.toNat ≤ a → a < off.toNat + n.toNat → Memory.byteAt? s.ibuf a ≠ none

/-- The 256-entry table of a byte-wise CRC-32 (40_checksum.md R76). -/
def crcTable : List Word := (List.range 256).map fun n => crcBits 8 (BitVec.ofNat 32 n)

/-- One byte by table look-up. -/
def crcTableByte (c : Word) (b : Byte) : Word :=
  (c >>> 8) ^^^ crcTable.getD ((c ^^^ b.setWidth 32).extractLsb' 0 8).toNat 0

/-- CRC-32 by table look-up. -/
def crc32ByTable (m : Bytes) : Word := m.foldl crcTableByte 0xFFFFFFFF ^^^ 0xFFFFFFFF

/-- The error codes a command may raise (60_exceptions.md R111, R115), and 0 for success. -/
def codesOf : Instr → List Byte
  | .nop => [0x00]
  | .crc32 => [0x00, 0x02]
  | .adler32 => [0x00, 0x02]
  | .parse => [0x00, 0x02, 0x10, 0x11, 0x03]
  | .serialize => [0x00, 0x12, 0x03]
  | .ctClear => [0x00]
  | .ctAppend => [0x00, 0x02, 0x03]
  | .ctRead => [0x00, 0x02, 0x03]
  | .reframe => [0x00, 0x02, 0x21, 0x03]
  | .decrush => [0x00, 0x20, 0x21, 0x03]

/-- The index a NAME stands for (30_encoding.md R74): of the named register, or the decimal index itself. -/
def NamesIndex (name : RegName) (i : Byte) : Prop :=
  match name with
  | .named r => csrOfIndex i = some r
  | .index n => i.toNat = n

/-- The line stands for these well-formed lines, in order (30_encoding.md R75). -/
abbrev IsExpansion (l : HostLine) (ls : List HostLine) : Prop :=
  expandLine l = ls.flatMap expandLine ∧ ∀ k ∈ ls, k.wellFormed = true

end Sys2Proof.Claims

open Sys2Proof.Claims

/-! ## Encoding -/

/-- R66, R67, R69: each command has exactly one word, and no other word decodes. -/
def Obligations.DecodeReadsExactlyTheEncodedWords : Prop :=
  ∀ (v : Word) (i : Instr), decode v = .ok i ↔ v = encode i

/-- R67: the ten words of the opcode map, written out. -/
def Obligations.OpcodeMapWordsDecode : Prop :=
  decode 0x00000000 = .ok .nop ∧ decode 0x00000001 = .ok .crc32 ∧ decode 0x00000002 = .ok .adler32 ∧
  decode 0x00000010 = .ok .parse ∧ decode 0x00000011 = .ok .serialize ∧ decode 0x00000012 = .ok .ctClear ∧
  decode 0x00000013 = .ok .ctAppend ∧ decode 0x00000014 = .ok .ctRead ∧ decode 0x00000020 = .ok .reframe ∧
  decode 0x00000021 = .ok .decrush

/-- R69: writing a reserved word to CMD is an error completion with ILLEGAL_CMD and changes STATUS alone. -/
def Obligations.ReservedWordIsIllegalCmd : Prop :=
  ∀ (v : Word) (s : State),
    (v.extractLsb' 8 24 ≠ 0 ∨
      (0x03 ≤ (v.extractLsb' 0 8).toNat ∧ (v.extractLsb' 0 8).toNat ≤ 0x0F) ∨
      (0x15 ≤ (v.extractLsb' 0 8).toNat ∧ (v.extractLsb' 0 8).toNat ≤ 0x1F) ∨
      0x22 ≤ (v.extractLsb' 0 8).toNat) →
    csrWrite 0 v s = .next { s with status := failed 0x01 }

/-! ## Steps and transactions -/

/-- R66, R135: a step performs the next event on the state with the event taken off; when it writes a word to CMD and the
word decodes, that is exec of the command. With nothing pending the engine waits (R9); that the model's step then leaves
the state as it is, is the model's choice (log 6). -/
def Obligations.StepRunsTheDecodedCommand : Prop :=
  (∀ (s : State) (v : Word) (rest : List Event) (i : Instr),
    s.pending = .bus (.csrWrite 0 v) :: rest → decode v = .ok i → step s = exec i { s with pending := rest }) ∧
  (∀ (s : State) (e : Event) (rest : List Event),
    s.pending = e :: rest → step s = perform e { s with pending := rest }) ∧
  ∀ s : State, s.pending = [] → step s = .next s

/-- Every command ends (R134) in a completion (R110), and every access outside a space in no fault (R54). That the model's
step ends in no fault and no refusal in any state is DEDUCED from these (log 9); that it answers a next state with nothing
pending, too, is the model's choice (log 6). -/
def Obligations.EveryStepAndCommandEnds : Prop :=
  (∀ s : State, ∃ t, step s = .next t) ∧ ∀ (i : Instr) (s : State), ∃ t, exec i s = .next t

/-- R48: the value of every index, and that reading changes nothing of the block. The reply the host gets is the model's
own list (log 5). -/
def Obligations.CsrReadReturnsTheRegister : Prop :=
  ∀ s : State,
    (∀ i, performTxn (.csrRead i) s = .next { s with replies := s.replies ++ [.word (csrRead s i)] }) ∧
    csrRead s 0 = 0 ∧ csrRead s 1 = s.status.word ∧ csrRead s 2 = s.aOff ∧ csrRead s 3 = s.aLen ∧
    csrRead s 4 = s.bOff ∧ csrRead s 5 = s.bLen ∧ csrRead s 6 = s.result ∧ csrRead s 7 = s.outLen ∧
    csrRead s 8 = BitVec.ofNat 32 s.ctab.length ∧ csrRead s 9 = s.ctIndex ∧ csrRead s 10 = s.ctTagLen ∧
    csrRead s 11 = s.ctLen ∧ csrRead s 12 = s.ctDcrc ∧ csrRead s 13 = (0 : BitVec 30) ++ s.ctKind ∧
    ∀ i : Byte, 14 ≤ i.toNat → csrRead s i = 0

/-- R21: the fields of STATUS as the host reads the register. -/
def Obligations.StatusWordHoldsItsFields : Prop :=
  ∀ st : Status,
    st.word.extractLsb' 0 8 = st.errCode ∧ st.word.getLsbD 8 = st.err ∧ st.word.getLsbD 31 = st.errSeen ∧
    ∀ k, 9 ≤ k → k ≤ 30 → st.word.getLsbD k = false

/-- R22: what a host write to STATUS does, that no command clears ERR_SEEN, and that a success leaves it as it was. -/
def Obligations.OnlyTheHostClearsErrSeen : Prop :=
  (∀ (v : Word) (s : State),
    csrWrite 1 v s =
      .next { s with status := { s.status with errSeen := if v.getLsbD 31 then false else s.status.errSeen } }) ∧
  (∀ (v : Word) (s t : State), csrWrite 0 v s = .next t → s.status.errSeen = true → t.status.errSeen = true) ∧
  ∀ (v : Word) (s t : State), csrWrite 0 v s = .next t → t.status.err = false → t.status.errSeen = s.status.errSeen

/-- R49: the effects of a register write. -/
def Obligations.CsrWriteEffects : Prop :=
  ∀ (v : Word) (s : State),
    (∀ i, decode v = .ok i → csrWrite 0 v s = exec i s) ∧
    (∀ r, decode v = .error r → csrWrite 0 v s = .next { s with status := failed 0x01 }) ∧
    csrWrite 1 v s =
      .next { s with status := { s.status with errSeen := if v.getLsbD 31 then false else s.status.errSeen } } ∧
    csrWrite 2 v s = .next { s with aOff := v } ∧ csrWrite 3 v s = .next { s with aLen := v } ∧
    csrWrite 4 v s = .next { s with bOff := v } ∧ csrWrite 5 v s = .next { s with bLen := v } ∧
    csrWrite 9 v s = .next { s with ctIndex := v } ∧
    csrWrite 6 v s = .next s ∧ csrWrite 7 v s = .next s ∧ csrWrite 8 v s = .next s ∧
    csrWrite 10 v s = .next s ∧ csrWrite 11 v s = .next s ∧ csrWrite 12 v s = .next s ∧ csrWrite 13 v s = .next s ∧
    ∀ i : Byte, 14 ≤ i.toNat → csrWrite i v s = .next s

/-- R50, R133: IbufWrite sets one byte of IBUF and nothing else; outside IBUF it does nothing. -/
def Obligations.IbufWriteSetsOneByte : Prop :=
  ∀ (a : Word) (b : Byte) (s : State),
    (a.toNat < s.params.ibufSize →
      ∃ t, performTxn (.ibufWrite a b) s = .next t ∧ ibufByte t a.toNat = b ∧
        (∀ x, x ≠ a.toNat → ibufByte t x = ibufByte s x) ∧ t = { s with ibuf := t.ibuf }) ∧
    (s.params.ibufSize ≤ a.toNat → performTxn (.ibufWrite a b) s = .next s)

/-- R51, R52: what a buffer read returns, and that it changes nothing of the block; the draw of an unwritten byte is a free
value (log 3), and this holds for every draw. -/
def Obligations.BufferReadsReturnTheByte : Prop :=
  ∀ (a : Word) (s : State),
    performTxn (.ibufRead a) s =
      .next { s with replies := s.replies ++
        [.byte (if a.toNat < s.params.ibufSize then
          (Memory.byteAt? s.ibuf a.toNat).getD (Config.ibufDraw s.resetCount a.toNat) else 0)] } ∧
    performTxn (.obufRead a) s =
      .next { s with replies := s.replies ++
        [.byte (if a.toNat < s.params.obufSize then
          (Memory.byteAt? s.obuf a.toNat).getD (Config.obufDraw s.resetCount a.toNat) else 0)] }

/-- R39, R40: OBUF changes only by a successful SERIALIZE, CT_READ or REFRAME, or by reset; IBUF changes only by IbufWrite
or by reset. R53: a write strobe to the OBUF space has no effect at all. -/
def Obligations.OnlyTheirWritersChangeTheBuffers : Prop :=
  (∀ (e : Event) (s t : State), perform e s = .next t → e ≠ .reset →
    (t.obuf ≠ s.obuf →
      ∃ v i, e = .bus (.csrWrite 0 v) ∧ decode v = .ok i ∧ (i = .serialize ∨ i = .ctRead ∨ i = .reframe) ∧
        t.status.err = false) ∧
    (t.ibuf ≠ s.ibuf → ∃ a b, e = .bus (.ibufWrite a b))) ∧
  ∀ (a : Word) (b : Byte) (s : State), perform (.obufStrobe a b) s = .next s

/-- R33: CTAB changes only by a successful PARSE, CT_CLEAR, CT_APPEND or DECRUSH, or by reset. -/
def Obligations.OnlyTableCommandsChangeCtab : Prop :=
  ∀ (e : Event) (s t : State), perform e s = .next t → t.ctab ≠ s.ctab →
    e = .reset ∨
    ∃ v i, e = .bus (.csrWrite 0 v) ∧ decode v = .ok i ∧
      (i = .parse ∨ i = .ctClear ∨ i = .ctAppend ∨ i = .decrush) ∧ t.status.err = false

/-! ## Reset and the invariants -/

/-- R42, R127: after a reset every register reads 0, CTAB is empty, and every byte of a buffer is a draw, of which nothing is
known. That a draw is a free function of the reset number and the address is the model's choice (log 3, log 4). -/
def Obligations.ResetSetsTheResetTable : Prop :=
  (∀ (p : Params) (n : Nat),
    (∀ i, csrRead (State.resetWith p n) i = 0) ∧ (State.resetWith p n).ctab = [] ∧
    (∀ a, ibufByte (State.resetWith p n) a = Config.ibufDraw n a) ∧
    ∀ a, obufByte (State.resetWith p n) a = Config.obufDraw n a) ∧
  ∀ s : State, ∃ t, perform .reset s = .next t ∧ (∀ i, csrRead t i = 0) ∧ t.ctab = [] ∧
    (∀ a, ibufByte t a = Config.ibufDraw t.resetCount a) ∧ ∀ a, obufByte t a = Config.obufDraw t.resetCount a

/-- The reset state meets every invariant (R21, R26, R32, R34, R39, R40), for every choice of the parameters. The canonical
form in BuffersOk, strictly rising addresses, is the model's choice (log 3). -/
def Obligations.ResetMeetsTheInvariants : Prop :=
  ∀ (p : Params) (n : Nat),
    StatusLegal (State.resetWith p n) ∧ CtabFits (State.resetWith p n) ∧ BuffersOk (State.resetWith p n) ∧
    OutputOk (State.resetWith p n)

/-- R21, R111, R116: STATUS always holds a legal code, and ERR is 1 exactly when the code is not 0. -/
def Obligations.StepKeepsStatusLegal : Prop :=
  ∀ s t : State, StatusLegal s → step s = .next t → StatusLegal t

/-- R34: CTAB keeps both capacity bounds. -/
def Obligations.StepKeepsCtabCapacity : Prop :=
  ∀ s t : State, CtabFits s → step s = .next t → CtabFits t

/-- R39, R40: the buffers stay inside their sizes, and keep their canonical form, which is the model's choice (log 3). -/
def Obligations.StepKeepsBuffersCanonical : Prop :=
  ∀ s t : State, BuffersOk s → step s = .next t → BuffersOk t

/-- R26, R32: OUT_LEN never exceeds OBUF_SIZE, and KIND is never 3. -/
def Obligations.StepKeepsOutputRegistersInRange : Prop :=
  ∀ s t : State, OutputOk s → step s = .next t → OutputOk t

/-- R10, R17: the parameters are no state, so no step changes the field the model carries them in (log 1). -/
def Obligations.NoStepChangesTheParameters : Prop :=
  ∀ s t : State, step s = .next t → t.params = s.params

/-! ## Completions and frames -/

/-- R112: an error completion changes STATUS alone. -/
def Obligations.ErrorCompletionWritesOnlyStatus : Prop :=
  ∀ (v : Word) (s t : State), csrWrite 0 v s = .next t → t.status.err = true →
    t.status.errCode ≠ 0x00 ∧ t = { s with status := failed t.status.errCode }

/-- R116: no command writes 0x30, and no step brings it into STATUS. -/
def Obligations.NoCommandRaisesUnsupportedFormat : Prop :=
  (∀ (v : Word) (s t : State), csrWrite 0 v s = .next t → t.status.errCode ≠ 0x30) ∧
  ∀ s t : State, s.status.errCode ≠ 0x30 → step s = .next t → t.status.errCode ≠ 0x30

/-- R111, R115: each command raises only the errors its row lists. -/
def Obligations.CommandsRaiseOnlyTheirErrors : Prop :=
  ∀ (i : Instr) (s t : State), exec i s = .next t → t.status.errCode ∈ codesOf i

/-- R72: what each command leaves unchanged, success or error; and the model's own fields: the parameters (log 1), the reset
counter (log 4), what is pending and what was replied (log 5). -/
def Obligations.CommandFrames : Prop :=
  ∀ (i : Instr) (s t : State), exec i s = .next t →
    t.aOff = s.aOff ∧ t.aLen = s.aLen ∧ t.bOff = s.bOff ∧ t.bLen = s.bLen ∧ t.ctIndex = s.ctIndex ∧
    (∀ a, ibufByte t a = ibufByte s a) ∧
    t.params = s.params ∧ t.resetCount = s.resetCount ∧ t.pending = s.pending ∧ t.replies = s.replies ∧
    (i ≠ .crc32 → i ≠ .adler32 → t.result = s.result) ∧
    (i ≠ .parse → i ≠ .ctClear → i ≠ .ctAppend → i ≠ .decrush → t.ctab = s.ctab) ∧
    (i ≠ .serialize → i ≠ .ctRead → i ≠ .reframe →
      t.outLen = s.outLen ∧ ∀ a, obufByte t a = obufByte s a) ∧
    (i ≠ .ctRead →
      t.ctTagLen = s.ctTagLen ∧ t.ctLen = s.ctLen ∧ t.ctDcrc = s.ctDcrc ∧ t.ctKind = s.ctKind)

/-- R72, R73: a command that uses no region does not depend on the region registers, and one that uses region B alone does
not depend on region A's. -/
def Obligations.UnusedRegionRegistersDoNotMatter : Prop :=
  (∀ (i : Instr) (s : State) (off n off' n' : Word),
    i = .nop ∨ i = .serialize ∨ i = .ctClear ∨ i = .ctRead ∨ i = .decrush →
    exec i (setRegionB off' n' (setRegionA off n s)) =
      mapNext (fun t => setRegionB off' n' (setRegionA off n t)) (exec i s)) ∧
  ∀ (i : Instr) (s : State) (off n : Word), i = .parse ∨ i = .reframe →
    exec i (setRegionA off n s) = mapNext (setRegionA off n) (exec i s)

/-- R65: the bytes of OBUF are no input of a command: two states that differ in OBUF alone end in states that differ in OBUF
alone. -/
def Obligations.ObufIsNoInputOfACommand : Prop :=
  ∀ (i : Instr) (s : State) (m : Memory), ∃ t t', exec i s = .next t ∧ exec i { s with obuf := m } = .next t' ∧
    t' = { t with obuf := t'.obuf }

/-- R130: where the host has written every byte of both regions since reset, no command depends on the draws. -/
def Obligations.WrittenRegionsHideTheDraws : Prop :=
  ∀ (i : Instr) (s : State) (n : Nat), Written s s.aOff s.aLen → Written s s.bOff s.bLen →
    exec i (setDraws n s) = mapNext (setDraws n) (exec i s)

/-! ## Regions -/

/-- R71: when a region is valid, and the bytes it then gives. -/
def Obligations.RegionIsCheckedWithoutWrap : Prop :=
  (∀ s : State, regionA s = region s s.aOff s.aLen ∧ regionB s = region s s.bOff s.bLen) ∧
  ∀ (s : State) (off n : Word),
    (off.toNat + n.toNat > s.params.ibufSize → region s off n = .error .range) ∧
    (off.toNat + n.toNat ≤ s.params.ibufSize →
      ∃ bs, region s off n = .ok bs ∧ bs.length = n.toNat ∧
        ∀ k, k < n.toNat → bs[k]? = some (ibufByte s (off.toNat + k))) ∧
    (off.toNat ≤ s.params.ibufSize → region s off 0 = .ok []) ∧
    (off.toNat > s.params.ibufSize → region s off 0 = .error .range)

/-! ## Checksums -/

/-- R76: the loop of the CRC-32 function, from the empty message and one byte at a time. The spec supplies the loop from
general knowledge (93_implementation_defined.md G1, log 11). -/
def Obligations.Crc32FollowsTheLoop : Prop :=
  crc32 [] = 0xFFFFFFFF ^^^ 0xFFFFFFFF ∧
  ∀ (m : Bytes) (b : Byte),
    crc32 (m ++ [b]) =
      Nat.iterate (fun c : Word => if c.getLsbD 0 then (c >>> 1) ^^^ 0xEDB88320 else c >>> 1) 8
        ((crc32 m ^^^ 0xFFFFFFFF) ^^^ b.setWidth 32) ^^^ 0xFFFFFFFF

/-- R76: a 256-entry table computes the same function as the loop (G1, log 11). -/
def Obligations.TableDrivenCrcAgrees : Prop :=
  ∀ m : Bytes, crc32ByTable m = crc32 m

/-- R76: no change of one byte goes unseen, in the function of the loop (G1, log 11). -/
def Obligations.OneByteChangeChangesTheCrc : Prop :=
  ∀ (p q : Bytes) (b b' : Byte), b ≠ b' → crc32 (p ++ b :: q) ≠ crc32 (p ++ b' :: q)

/-- R78: vectors of the CRC-32 function; the last is the spec's general knowledge (G2, log 11). -/
def Obligations.Crc32Vectors : Prop :=
  crc32 [] = 0x00000000 ∧ crc32 [0x49, 0x44, 0x41, 0x54] = 0x35AF061E ∧
  crc32 [0x49, 0x45, 0x4E, 0x44] = 0xAE426082 ∧
  crc32 [0x31, 0x32, 0x33, 0x34, 0x35, 0x36, 0x37, 0x38, 0x39] = 0xCBF43926

/-- R79, R80: the running sums stay below 65521, and the result packs them without overflow. The spec supplies the start
values, the packing and the last vector from general knowledge (G4, G5, log 11). -/
def Obligations.Adler32SumsStayInRange : Prop :=
  (∀ m : Bytes,
    (adlerSums m).1 < 65521 ∧ (adlerSums m).2 < 65521 ∧
    (adler32 m).toNat = (adlerSums m).2 * 65536 + (adlerSums m).1) ∧
  adlerSums [] = (1, 0) ∧
  (∀ (m : Bytes) (x : Byte),
    (adlerSums (m ++ [x])).1 = ((adlerSums m).1 + x.toNat) % 65521 ∧
    (adlerSums (m ++ [x])).2 = ((adlerSums m).2 + (adlerSums (m ++ [x])).1) % 65521) ∧
  adler32 [] = 0x00000001 ∧
  adler32 [0x57, 0x69, 0x6B, 0x69, 0x70, 0x65, 0x64, 0x69, 0x61] = 0x11E60398

/-- R81: NOP completes in every state and clears the error code alone; a word with its opcode and RSVD not 0 is illegal. -/
def Obligations.NopClearsTheErrorCode : Prop :=
  decode 0x00000000 = .ok .nop ∧
  ∀ s : State, exec .nop s = .next { s with status := succeeded s } ∧
    (s.status.word = 0x80000110 →
      ({ s with status := succeeded s } : State).status.word = 0x80000000) ∧
    ∀ v : Word, v.extractLsb' 0 8 = 0 → v ≠ 0 → csrWrite 0 v s = .next { s with status := failed 0x01 }

/-- R82: CRC32 completes when both regions lie in IBUF, with RESULT the CRC-32 of A then B; otherwise RANGE. -/
def Obligations.Crc32Result : Prop :=
  decode 0x00000001 = .ok .crc32 ∧
  ∀ s : State,
    (AInIbuf s → BInIbuf s →
      exec .crc32 s = .next { s with result := crc32 (aBytes s ++ bBytes s), status := succeeded s }) ∧
    (¬ AInIbuf s ∨ ¬ BInIbuf s → FailsWith .crc32 s 0x02) ∧
    (s.aLen = 0 → s.bLen = 0 → crc32 (aBytes s ++ bBytes s) = 0x00000000) ∧
    (aBytes s = [0x49, 0x45, 0x4E, 0x44] → s.bLen = 0 → crc32 (aBytes s ++ bBytes s) = 0xAE426082)

/-- R83: ADLER32 completes when both regions lie in IBUF, with RESULT the Adler-32 of A then B; otherwise RANGE. -/
def Obligations.Adler32Result : Prop :=
  decode 0x00000002 = .ok .adler32 ∧
  ∀ s : State,
    (AInIbuf s → BInIbuf s →
      exec .adler32 s = .next { s with result := adler32 (aBytes s ++ bBytes s), status := succeeded s }) ∧
    (¬ AInIbuf s ∨ ¬ BInIbuf s → FailsWith .adler32 s 0x02) ∧
    (s.aLen = 0 → s.bLen = 0 → adler32 (aBytes s ++ bBytes s) = 0x00000001) ∧
    (s.aLen = 0 → bBytes s = [0x57, 0x69, 0x6B, 0x69, 0x70, 0x65, 0x64, 0x69, 0x61] →
      adler32 (aBytes s ++ bBytes s) = 0x11E60398)

/-! ## Chunk codec -/

/-- R35: exact, case-sensitive classification; a tag of another length than 4 is Other. -/
def Obligations.KindIsExactMatch : Prop :=
  ∀ tag : Bytes,
    (kind tag = .idat ↔ tag = [0x49, 0x44, 0x41, 0x54]) ∧ (kind tag = .cgbi ↔ tag = [0x43, 0x67, 0x42, 0x49]) ∧
    (kind tag = .other ↔ tag ≠ [0x49, 0x44, 0x41, 0x54] ∧ tag ≠ [0x43, 0x67, 0x42, 0x49]) ∧
    (tag.length ≠ 4 → kind tag = .other) ∧ kind [0x69, 0x64, 0x61, 0x74] = .other

/-- R84, R85: parse succeeds with cs exactly on the stream that is SIG followed by the records of cs; it raises SIGNATURE
exactly when the stream does not begin with SIG, and FRAMING on every other stream. -/
def Obligations.ParseReadsExactlyTheRecords : Prop :=
  ∀ s : Bytes,
    (∀ cs, parse s = .ok cs ↔
      s = [0x89, 0x50, 0x4E, 0x47, 0x0D, 0x0A, 0x1A, 0x0A] ++ cs.flatMap declaredRecord ∧
        ∀ c ∈ cs, Representable c) ∧
    (parse s = .error .signature ↔ ¬ [0x89, 0x50, 0x4E, 0x47, 0x0D, 0x0A, 0x1A, 0x0A] <+: s) ∧
    ∀ e, parse s = .error e → e = .signature ∨ e = .framing

/-- R85, R87: after any whole records, a remainder too short for its fields, an over-large declared length included, is
FRAMING. -/
def Obligations.TruncatedRecordIsFraming : Prop :=
  ∀ (cs : List Chunk) (tail : Bytes), (∀ c ∈ cs, Representable c) → tail ≠ [] →
    tail.length < 8 ∨ tail.length < 8 + (rdBe32 (tail.take 4) + 4) →
    parse (sig ++ cs.flatMap declaredRecord ++ tail) = .error .framing

/-- R91: PARSE completes when region B lies in IBUF, parses, and fits; then CTAB is the parsed sequence. -/
def Obligations.ParseResult : Prop :=
  ∀ (s : State) (cs : List Chunk), BInIbuf s → parse (bBytes s) = .ok cs →
    cs.length ≤ s.params.maxChunks → ctabBytes cs ≤ s.params.ctabBytes →
    exec .parse s = .next { s with ctab := cs, status := succeeded s }

/-- R88: which sequences serialize, the stream they give, how long it is, and that in a table within its capacity no length
overflows its field. -/
def Obligations.SerializeChecksTagsAndHasLength : Prop :=
  (∀ s : State, s.params.wellFormed = true → CtabFits s → ∀ c ∈ s.ctab, c.data.length < 2 ^ 32) ∧
  ∀ cs : List Chunk,
    ((∀ c ∈ cs, c.tag.length = 4) →
      ∃ o, serialize cs = .ok o ∧ o.length = 8 + (cs.map fun c => 12 + c.data.length).sum ∧
        o = [0x89, 0x50, 0x4E, 0x47, 0x0D, 0x0A, 0x1A, 0x0A] ++
          cs.flatMap fun c =>
            be32 (BitVec.ofNat 32 c.data.length) ++ c.tag ++ c.data ++ be32 (crc32 (c.tag ++ c.data))) ∧
    ((∃ c ∈ cs, c.tag.length ≠ 4) → serialize cs = .error .tagLength)

/-- R89: the declared CRCs of the records do not reach the output, whatever they are; every CRC in it is the fresh one. -/
def Obligations.SerializeNeverReadsDcrc : Prop :=
  ∀ (cs : List Chunk) (f : Chunk → Word),
    serialize (cs.map fun c => { c with dcrc := f c }) = serialize cs ∧
    ((∀ c ∈ cs, c.tag.length = 4) →
      serialize (cs.map fun c => { c with dcrc := f c }) = .ok (sig ++ (cs.map freshened).flatMap declaredRecord))

/-- R90: the round trips of parse and serialize. Where a declared CRC is not valid, the output differs from the stream in
that record's CRC bytes, which hold the correct CRC: it is the same records with every CRC fresh. A data length is one a
length field holds, as R11 bounds it. -/
def Obligations.ParseSerializeRoundTrip : Prop :=
  (∀ (s : Bytes) (cs : List Chunk), parse s = .ok cs → (∀ c ∈ cs, ValidCrc c) → serialize cs = .ok s) ∧
  (∀ (s : Bytes) (cs : List Chunk), parse s = .ok cs →
    s = sig ++ cs.flatMap declaredRecord ∧
    serialize cs = .ok (sig ++ (cs.map freshened).flatMap declaredRecord)) ∧
  ∀ cs : List Chunk, (∀ c ∈ cs, Representable c) →
    ∃ o, serialize cs = .ok o ∧ parse o = .ok (cs.map freshened)

/-- R92: SERIALIZE completes when every tag has 4 bytes and the stream fits OBUF; it writes the stream at OBUF 0 and leaves
every other byte. -/
def Obligations.SerializeResult : Prop :=
  ∀ (s : State) (o : Bytes), serialize s.ctab = .ok o → o.length ≤ s.params.obufSize →
    ∃ t, exec .serialize s = .next t ∧ WroteOutput o s t ∧ t.status = succeeded s ∧
      t = { s with obuf := t.obuf, outLen := t.outLen, status := t.status }

/-- R93: CT_CLEAR completes in every state and empties CTAB alone. -/
def Obligations.CtClearEmptiesTheTable : Prop :=
  decode 0x00000012 = .ok .ctClear ∧
  ∀ s : State, exec .ctClear s = .next { s with ctab := [], status := succeeded s }

/-- R94: CT_APPEND completes when both regions lie in IBUF and the record fits; then the errors in their order. -/
def Obligations.CtAppendResult : Prop :=
  ∀ s : State,
    (AInIbuf s → BInIbuf s → s.ctab.length + 1 ≤ s.params.maxChunks →
      ctabBytes s.ctab + (aBytes s).length + (bBytes s).length ≤ s.params.ctabBytes →
      exec .ctAppend s =
        .next { s with
          ctab := s.ctab ++ [{ tag := aBytes s, data := bBytes s, dcrc := crc32 (aBytes s ++ bBytes s) }]
          status := succeeded s }) ∧
    (¬ AInIbuf s ∨ ¬ BInIbuf s → FailsWith .ctAppend s 0x02) ∧
    (AInIbuf s → BInIbuf s →
      s.ctab.length + 1 > s.params.maxChunks ∨
        ctabBytes s.ctab + (aBytes s).length + (bBytes s).length > s.params.ctabBytes →
      FailsWith .ctAppend s 0x03)

/-- R95: CT_READ completes when the index names a record that fits OBUF; it writes the record to OBUF and the CT_ registers,
and leaves every other byte of OBUF. -/
def Obligations.CtReadResult : Prop :=
  ∀ (s : State) (c : Chunk), s.ctab[s.ctIndex.toNat]? = some c →
    c.tag.length + c.data.length ≤ s.params.obufSize →
    ∃ t, exec .ctRead s = .next t ∧ WroteOutput (c.tag ++ c.data) s t ∧
      t.ctTagLen = wordOfNat c.tag.length ∧ t.ctLen = wordOfNat c.data.length ∧ t.ctDcrc = c.dcrc ∧
      t.ctKind = (match kind c.tag with | .other => 0 | .idat => 1 | .cgbi => 2) ∧ t.status = succeeded s ∧
      t = { s with
        obuf := t.obuf, outLen := t.outLen, ctTagLen := t.ctTagLen, ctLen := t.ctLen, ctDcrc := t.ctDcrc
        ctKind := t.ctKind, status := t.status }

/-- R91, R92, R95, R115: the errors of PARSE, SERIALIZE and CT_READ in their order. -/
def Obligations.ChunkCodecCommandErrors : Prop :=
  ∀ s : State,
    (¬ BInIbuf s → FailsWith .parse s 0x02) ∧
    (BInIbuf s → parse (bBytes s) = .error .signature → FailsWith .parse s 0x10) ∧
    (BInIbuf s → parse (bBytes s) = .error .framing → FailsWith .parse s 0x11) ∧
    (∀ cs, BInIbuf s → parse (bBytes s) = .ok cs →
      cs.length > s.params.maxChunks ∨ ctabBytes cs > s.params.ctabBytes → FailsWith .parse s 0x03) ∧
    ((∃ c ∈ s.ctab, c.tag.length ≠ 4) → FailsWith .serialize s 0x12) ∧
    (∀ o, serialize s.ctab = .ok o → o.length > s.params.obufSize → FailsWith .serialize s 0x03) ∧
    (s.ctab.length ≤ s.ctIndex.toNat → FailsWith .ctRead s 0x02) ∧
    ∀ c, s.ctab[s.ctIndex.toNat]? = some c → c.tag.length + c.data.length > s.params.obufSize →
      FailsWith .ctRead s 0x03

/-! ## Reframer -/

/-- R96 to R99: the envelope of every zlib stream, whatever the codec: the header, a body that inflates to the data, the
big-endian Adler-32 of the data. The two header bytes are the spec's general knowledge (G3, log 11). -/
def Obligations.ZlibEnvelope : Prop :=
  ∀ (k : Codec) (u : Bytes),
    zwrap k u = [0x78, 0x9C] ++ k.deflate u ++ be32 (adler32 u) ∧
    (zwrap k u).length = 6 + (k.deflate u).length ∧
    k.inflate (((zwrap k u).drop 2).take (k.deflate u).length) = some u ∧
    rdBe32 ((zwrap k u).drop ((zwrap k u).length - 4)) = (adler32 u).toNat

/-- R103, R107: the closed form of split, its length and its sum. -/
def Obligations.SplitClosedForm : Prop :=
  ∀ n k : Nat, 1 ≤ k →
    split n k = List.replicate (n % k) (n / k + 1) ++ List.replicate (k - n % k) (n / k) ∧
    (split n k).length = k ∧ (split n k).sum = n

/-- R104: the new IDAT records. -/
def Obligations.NewIdatRecords : Prop :=
  ∀ (z : Bytes) (k : Nat), 1 ≤ k →
    (newIdats z k).length = k ∧ (newIdats z k).flatMap Chunk.data = z ∧
    (newIdats z k).map (fun c => c.data.length) = split z.length k ∧
    ∀ c ∈ newIdats z k, c.tag = [0x49, 0x44, 0x41, 0x54] ∧ c.dcrc = crc32 ([0x49, 0x44, 0x41, 0x54] ++ c.data)

/-- R105: where the new records go, said without the walk: among the kept records, after those before the first IDAT. -/
def Obligations.ReassembleInsertsAtTheFirstIdat : Prop :=
  (∀ (p q new : List Chunk) (c : Chunk), (∀ d ∈ p, kind d.tag ≠ .idat) → kind c.tag = .idat →
    reassemble (p ++ c :: q) new =
      p.filter (fun d => kind d.tag = .other) ++ new ++ q.filter (fun d => kind d.tag = .other)) ∧
  ∀ cs new : List Chunk, (∀ d ∈ cs, kind d.tag ≠ .idat) →
    reassemble cs new = cs.filter (fun d => kind d.tag = .other)

/-- R107, stream integrity: the output IDAT payloads are the zlib stream of what the input payloads inflate to, for every
codec. -/
def Obligations.DecrushKeepsTheImageStream : Prop :=
  ∀ (k : Codec) (p : Params) (cs out : List Chunk), decrush k p cs = .ok out →
    ∃ u, k.inflate ((cs.filter fun c => kind c.tag = .idat).flatMap Chunk.data) = some u ∧
      (out.filter fun c => kind c.tag = .idat).flatMap Chunk.data = zwrap k u

/-- R101, R107: cardinality, no marker left, so that a second decrush fails; the other records unchanged and in order, the
length, and that the IDAT records stand together. -/
def Obligations.DecrushKeepsTheOtherRecords : Prop :=
  ∀ (k : Codec) (p : Params) (cs out : List Chunk), decrush k p cs = .ok out →
    (idats out).length = (idats cs).length ∧ markers out = [] ∧ others out = others cs ∧
    out.length + (markers cs).length = cs.length ∧
    (∃ front back, out = front ++ idats out ++ back ∧ idats front = [] ∧ idats back = []) ∧
    ∀ p', decrush k p' out = .error .missingMarker

/-- R108: REFRAME completes when region B lies in IBUF, is not empty, inflates, and both sizes fit; it writes the zlib stream
at OBUF 0 and leaves every other byte. The codec is whichever the machine has. -/
def Obligations.ReframeResult : Prop :=
  ∀ (s : State) (u : Bytes), BInIbuf s → bBytes s ≠ [] →
    (Config.codec s.params.codec).inflate (bBytes s) = some u → u.length ≤ s.params.scratchBytes →
    (zwrap (Config.codec s.params.codec) u).length ≤ s.params.obufSize →
    ∃ t, exec .reframe s = .next t ∧ WroteOutput (zwrap (Config.codec s.params.codec) u) s t ∧
      t.status = succeeded s ∧ t = { s with obuf := t.obuf, outLen := t.outLen, status := t.status }

/-- R109: DECRUSH completes when CTAB holds a marker and IDAT data that inflates, and all sizes fit; then CTAB is the
reassembled sequence. The codec is whichever the machine has. -/
def Obligations.DecrushResult : Prop :=
  ∀ (s : State) (u : Bytes), markers s.ctab ≠ [] → idatData s.ctab ≠ [] →
    (Config.codec s.params.codec).inflate (idatData s.ctab) = some u → u.length ≤ s.params.scratchBytes →
    (zwrap (Config.codec s.params.codec) u).length ≤ s.params.scratchBytes →
    ctabBytes (reassemble s.ctab (newIdats (zwrap (Config.codec s.params.codec) u) (idats s.ctab).length)) ≤
      s.params.ctabBytes →
    exec .decrush s =
      .next { s with
        ctab := reassemble s.ctab (newIdats (zwrap (Config.codec s.params.codec) u) (idats s.ctab).length)
        status := succeeded s }

/-- R108, R109, R115: the errors of REFRAME and DECRUSH in their order. The codec is whichever the machine has. -/
def Obligations.ReframerCommandErrors : Prop :=
  ∀ s : State,
    (¬ BInIbuf s → FailsWith .reframe s 0x02) ∧
    (BInIbuf s → bBytes s = [] → FailsWith .reframe s 0x21) ∧
    (BInIbuf s → (Config.codec s.params.codec).inflate (bBytes s) = none → FailsWith .reframe s 0x21) ∧
    (∀ u, BInIbuf s → bBytes s ≠ [] → (Config.codec s.params.codec).inflate (bBytes s) = some u →
      u.length > s.params.scratchBytes ∨ (zwrap (Config.codec s.params.codec) u).length > s.params.obufSize →
      FailsWith .reframe s 0x03) ∧
    (markers s.ctab = [] → FailsWith .decrush s 0x20) ∧
    (markers s.ctab ≠ [] → idatData s.ctab = [] → FailsWith .decrush s 0x21) ∧
    (markers s.ctab ≠ [] → (Config.codec s.params.codec).inflate (idatData s.ctab) = none →
      FailsWith .decrush s 0x21) ∧
    ∀ u, markers s.ctab ≠ [] → idatData s.ctab ≠ [] →
      (Config.codec s.params.codec).inflate (idatData s.ctab) = some u →
      u.length > s.params.scratchBytes ∨ (zwrap (Config.codec s.params.codec) u).length > s.params.scratchBytes ∨
        ctabBytes (reassemble s.ctab (newIdats (zwrap (Config.codec s.params.codec) u) (idats s.ctab).length)) >
          s.params.ctabBytes →
      FailsWith .decrush s 0x03

/-! ## Host programs -/

/-- R75: each pseudo-line is its expansion into plain lines, which are well formed when it is (log 7); `cmd` writes the word
that decodes to its command. -/
def Obligations.PseudoLinesExpand : Prop :=
  (∀ i : Instr, IsExpansion (.cmd i) [.wr (.named .cmd) (opcodeOf i).toNat] ∧
    expandLine (.cmd i) = [.csrWrite 0 (encode i)] ∧ decode (encode i) = .ok i) ∧
  (∀ (a : Nat) (bs : List Nat), (HostLine.wibs a bs).wellFormed = true →
    IsExpansion (.wibs a bs) ((bs.zipIdx a).map fun p => .wib p.2 p.1)) ∧
  (∀ (a : Nat) (text : List Char), (HostLine.wibText a text).wellFormed = true →
    IsExpansion (.wibText a text) [.wibs a (text.map Char.toNat)]) ∧
  (∀ a n : Nat, (HostLine.robs a n).wellFormed = true →
    IsExpansion (.robs a n) ((List.range n).map fun k => .rob (a + k))) ∧
  (∀ off n : Nat, (HostLine.regA off n).wellFormed = true →
    IsExpansion (.regA off n) [.wr (.named .aOff) off, .wr (.named .aLen) n]) ∧
  (∀ off n : Nat, (HostLine.regB off n).wellFormed = true →
    IsExpansion (.regB off n) [.wr (.named .bOff) off, .wr (.named .bLen) n]) ∧
  IsExpansion .clrErr [.wr (.named .status) 0x80000000]

/-- R74: each plain line is its one transaction, with the register its NAME names and the numbers as they are written, and
a program is its lines in order. A line is well formed when its numbers fit their transaction (log 7); that a program is a
list of the model's events is the model's choice (log 5). -/
def Obligations.PlainLinesAreTransactions : Prop :=
  (∀ (name : RegName) (v : Nat), (HostLine.wr name v).wellFormed = true →
    ∃ (i : Byte) (w : Word), NamesIndex name i ∧ w.toNat = v ∧ expandLine (.wr name v) = [.csrWrite i w]) ∧
  (∀ name : RegName, (HostLine.rd name).wellFormed = true →
    ∃ i : Byte, NamesIndex name i ∧ expandLine (.rd name) = [.csrRead i]) ∧
  (∀ a b : Nat, (HostLine.wib a b).wellFormed = true →
    ∃ (x : Word) (y : Byte), x.toNat = a ∧ y.toNat = b ∧ expandLine (.wib a b) = [.ibufWrite x y]) ∧
  (∀ a : Nat, (HostLine.rib a).wellFormed = true →
    ∃ x : Word, x.toNat = a ∧ expandLine (.rib a) = [.ibufRead x]) ∧
  (∀ a : Nat, (HostLine.rob a).wellFormed = true →
    ∃ x : Word, x.toNat = a ∧ expandLine (.rob a) = [.obufRead x]) ∧
  expandProgram [] = [] ∧
  ∀ (l : HostLine) (p : List HostLine), expandProgram (l :: p) = (expandLine l).map Event.bus ++ expandProgram p
end

