-- ==== Sys2Proof/Laws/Checksum.lean ====
section
/-! SUPPORT. The checksum loops (40_checksum.md R76, R79): the bit loop is linear over exclusive OR and loses nothing, and
the Adler sums go on one byte at a time. -/

namespace Sys2Proof.Machine

theorem crcBit_xor (x y : Word) : crcBit (x ^^^ y) = crcBit x ^^^ crcBit y := by
  have hself : ∀ a b c : Word, a ^^^ c ^^^ (b ^^^ c) = a ^^^ b := fun a b c => by
    rw [show a ^^^ c ^^^ (b ^^^ c) = a ^^^ b ^^^ (c ^^^ c) by ac_rfl, BitVec.xor_self, BitVec.xor_zero]
  unfold crcBit
  simp only [BitVec.getLsbD_xor, BitVec.ushiftRight_xor_distrib]
  cases x.getLsbD 0 <;> cases y.getLsbD 0 <;> simp
  · ac_rfl
  · ac_rfl
  · exact (hself _ _ _).symm

theorem crcBits_xor (n : Nat) (x y : Word) : crcBits n (x ^^^ y) = crcBits n x ^^^ crcBits n y := by
  induction n generalizing x y with
  | zero => rfl
  | succ n ih => simp only [crcBits, crcBit_xor, ih]

/-- Where the n low bits are 0 the loop only shifts. -/
theorem crcBits_shift (n : Nat) (x : Word) (h : ∀ k < n, x.getLsbD k = false) : crcBits n x = x >>> n := by
  induction n generalizing x with
  | zero => simp [crcBits]
  | succ n ih =>
    rw [crcBits, crcBit, if_neg (by simpa using h 0 (by omega)), ih]
    · rw [← BitVec.shiftRight_add, Nat.add_comm 1 n]
    · intro k hk
      rw [BitVec.getLsbD_ushiftRight]
      exact h (1 + k) (by omega)

theorem crcBit_inj {x y : Word} (h : crcBit x = crcBit y) : x = y := by
  have h0 : crcBit (x ^^^ y) = 0#32 := by rw [crcBit_xor, h, BitVec.xor_self]
  refine BitVec.xor_eq_zero_iff.1 ?_
  generalize x ^^^ y = z at h0
  unfold crcBit at h0
  split at h0
  · have := congrArg (BitVec.getLsbD · 31) h0
    simp at this
  · rename_i hl
    apply BitVec.eq_of_getLsbD_eq
    intro k hk
    cases k with
    | zero => simpa using hl
    | succ k =>
      have := congrArg (BitVec.getLsbD · k) h0
      simp only [BitVec.getLsbD_ushiftRight] at this
      rw [Nat.add_comm] at this
      simpa using this

theorem crcBits_inj (n : Nat) {x y : Word} (h : crcBits n x = crcBits n y) : x = y := by
  induction n generalizing x y with
  | zero => exact h
  | succ n ih => exact crcBit_inj (ih h)

theorem adlerSums_append_singleton (m : Bytes) (x : Byte) : adlerSums (m ++ [x]) = adlerByte (adlerSums m) x := by
  unfold adlerSums
  rw [List.foldl_append]
  rfl

end Sys2Proof.Machine
end

