-- ==== Sys2Proof/Laws/Memory.lean ====
section
/-! SUPPORT. What reading and writing a buffer do: a read after a write, the canonical form, and that the form makes equal
contents equal data. -/

namespace Sys2Proof.Machine

@[simp] theorem Memory.byteAt?_nil (a : Nat) : Memory.byteAt? [] a = none := rfl

theorem Memory.byteAt?_put_self (m : Memory) (a : Nat) (b : Byte) : Memory.byteAt? (Memory.put m a b) a = some b := by
  induction m with
  | nil => simp [Memory.put, Memory.byteAt?]
  | cons c m ih =>
    obtain ⟨k, v⟩ := c
    unfold Memory.put
    split
    · simp [Memory.byteAt?]
    · split
      · simp [Memory.byteAt?]
      · simp [Memory.byteAt?, *]

theorem Memory.byteAt?_put_other (m : Memory) {a x : Nat} (b : Byte) (h : x ≠ a) :
    Memory.byteAt? (Memory.put m a b) x = Memory.byteAt? m x := by
  induction m with
  | nil => simp [Memory.put, Memory.byteAt?, h]
  | cons c m ih =>
    obtain ⟨k, v⟩ := c
    unfold Memory.put
    split
    · simp [Memory.byteAt?, h]
    · split
      · subst a; simp [Memory.byteAt?, h]
      · simp [Memory.byteAt?, ih]

/-- What a one-byte write leaves at every address. -/
theorem Memory.byteAt?_put (m : Memory) (a x : Nat) (b : Byte) :
    Memory.byteAt? (Memory.put m a b) x = if x = a then some b else Memory.byteAt? m x := by
  split
  · subst x; exact Memory.byteAt?_put_self m a b
  · exact Memory.byteAt?_put_other m b ‹_›

/-- What a write of several bytes leaves at every address. -/
theorem Memory.byteAt?_putBytes (m : Memory) (a x : Nat) (bs : Bytes) :
    Memory.byteAt? (Memory.putBytes m a bs) x =
      if a ≤ x ∧ x < a + bs.length then bs[x - a]? else Memory.byteAt? m x := by
  induction bs generalizing m a with
  | nil =>
    simp [Memory.putBytes]
  | cons b bs ih =>
    rw [Memory.putBytes, ih, Memory.byteAt?_put]
    by_cases hx : x = a
    · subst hx
      simp
    · by_cases hin : a + 1 ≤ x ∧ x < a + 1 + bs.length
      · have h1 : a ≤ x ∧ x < a + (b :: bs).length := by simp; omega
        rw [if_pos hin, if_pos h1]
        have h2 : x - a = (x - (a + 1)) + 1 := by omega
        rw [h2]; simp
      · have h1 : ¬ (a ≤ x ∧ x < a + (b :: bs).length) := by simp; omega
        rw [if_neg hin, if_neg h1, if_neg hx]

theorem Memory.mem_keys_put {m : Memory} {a k : Nat} {b : Byte}
    (h : k ∈ (Memory.put m a b).map Prod.fst) : k = a ∨ k ∈ m.map Prod.fst := by
  induction m with
  | nil => simpa [Memory.put] using h
  | cons c m ih =>
    obtain ⟨k0, v⟩ := c
    unfold Memory.put at h
    split at h
    · simpa using h
    · split at h
      · simp only [List.map_cons, List.mem_cons] at h ⊢; tauto
      · simp only [List.map_cons, List.mem_cons] at h ⊢
        rcases h with h | h
        · tauto
        · rcases ih h with h | h <;> tauto

/-- A one-byte write keeps the canonical form. -/
theorem Memory.wf_put {m : Memory} (hm : Memory.wf m) (a : Nat) (b : Byte) : Memory.wf (Memory.put m a b) := by
  induction m with
  | nil => simp [Memory.put, Memory.wf]
  | cons c m ih =>
    obtain ⟨k, v⟩ := c
    have hk : (∀ x ∈ m.map Prod.fst, k < x) ∧ Memory.wf m := by simpa [Memory.wf] using hm
    unfold Memory.put
    split
    · rename_i hlt
      simp only [Memory.wf, List.map_cons, List.pairwise_cons]
      refine ⟨?_, hk.1, hk.2⟩
      intro x hx
      rcases List.mem_cons.1 hx with rfl | hx
      · exact hlt
      · exact Nat.lt_trans hlt (hk.1 x hx)
    · split
      · subst a
        simp only [Memory.wf, List.map_cons, List.pairwise_cons]
        exact hk
      · simp only [Memory.wf, List.map_cons, List.pairwise_cons]
        refine ⟨?_, ih hk.2⟩
        intro x hx
        rcases Memory.mem_keys_put hx with rfl | hx
        · omega
        · exact hk.1 x hx

/-- A write of several bytes keeps the canonical form. -/
theorem Memory.wf_putBytes {m : Memory} (hm : Memory.wf m) (a : Nat) (bs : Bytes) :
    Memory.wf (Memory.putBytes m a bs) := by
  induction bs generalizing m a with
  | nil => exact hm
  | cons b bs ih => exact ih (Memory.wf_put hm a b) (a + 1)

theorem Memory.within_put {m : Memory} {n a : Nat} (hm : Memory.within n m) (ha : a < n) (b : Byte) :
    Memory.within n (Memory.put m a b) := by
  intro c hc
  rcases Memory.mem_keys_put (List.mem_map_of_mem (f := Prod.fst) hc) with h | h
  · omega
  · obtain ⟨d, hd, h⟩ := List.mem_map.1 h
    exact h ▸ hm d hd

theorem Memory.within_putBytes {m : Memory} {n a : Nat} {bs : Bytes} (hm : Memory.within n m)
    (ha : a + bs.length ≤ n) : Memory.within n (Memory.putBytes m a bs) := by
  induction bs generalizing m a with
  | nil => exact hm
  | cons b bs ih =>
    simp only [List.length_cons] at ha
    exact ih (Memory.within_put hm (by omega) b) (by omega)

/-- No address below a canonical memory's first is listed. -/
theorem Memory.byteAt?_eq_none_of_lt {m : Memory} {a : Nat} (h : ∀ x ∈ m.map Prod.fst, a < x) :
    Memory.byteAt? m a = none := by
  induction m with
  | nil => rfl
  | cons c m ih =>
    obtain ⟨k, v⟩ := c
    have hk : a < k := h k (by simp)
    rw [Memory.byteAt?, if_neg (by omega)]
    exact ih fun x hx => h x (List.mem_cons_of_mem _ hx)

/-- In canonical form, equal contents are equal data. -/
theorem Memory.ext_of_wf {m m' : Memory} (hm : Memory.wf m) (hm' : Memory.wf m')
    (h : ∀ a, Memory.byteAt? m a = Memory.byteAt? m' a) : m = m' := by
  induction m generalizing m' with
  | nil =>
    cases m' with
    | nil => rfl
    | cons c m' => simpa [Memory.byteAt?] using h c.1
  | cons c m ih =>
    obtain ⟨k, v⟩ := c
    have hk : (∀ x ∈ m.map Prod.fst, k < x) ∧ Memory.wf m := by simpa [Memory.wf] using hm
    cases m' with
    | nil => simpa [Memory.byteAt?] using h k
    | cons c' m' =>
      obtain ⟨k', v'⟩ := c'
      have hk' : (∀ x ∈ m'.map Prod.fst, k' < x) ∧ Memory.wf m' := by simpa [Memory.wf] using hm'
      have hkk : k = k' := by
        rcases Nat.lt_trichotomy k k' with hlt | heq | hgt
        · have hn : Memory.byteAt? ((k', v') :: m') k = none := Memory.byteAt?_eq_none_of_lt (by
            intro x hx
            rcases List.mem_cons.1 hx with rfl | hx
            · exact hlt
            · exact Nat.lt_trans hlt (hk'.1 x hx))
          rw [← h k] at hn
          simp [Memory.byteAt?] at hn
        · exact heq
        · have hn : Memory.byteAt? ((k, v) :: m) k' = none := Memory.byteAt?_eq_none_of_lt (by
            intro x hx
            rcases List.mem_cons.1 hx with rfl | hx
            · exact hgt
            · exact Nat.lt_trans hgt (hk.1 x hx))
          rw [h k'] at hn
          simp [Memory.byteAt?] at hn
      subst hkk
      have hv : v = v' := by simpa [Memory.byteAt?] using h k
      subst hv
      congr 1
      refine ih hk.2 hk'.2 fun a => ?_
      by_cases ha : a = k
      · subst ha
        rw [Memory.byteAt?_eq_none_of_lt hk.1, Memory.byteAt?_eq_none_of_lt hk'.1]
      · simpa [Memory.byteAt?, ha] using h a

end Sys2Proof.Machine
end

