-- ==== Sys2Proof/Laws/State.lean ====
section
/-! SUPPORT. One lemma per field per shared update of the state, so that no later proof unfolds an update. -/

namespace Sys2Proof.Machine

/-! ## errorCompletion -/

@[simp] theorem errorCompletion_status (e : Err) (s : State) : (errorCompletion e s).status = Status.afterError e := rfl
@[simp] theorem errorCompletion_aOff (e : Err) (s : State) : (errorCompletion e s).aOff = s.aOff := rfl
@[simp] theorem errorCompletion_aLen (e : Err) (s : State) : (errorCompletion e s).aLen = s.aLen := rfl
@[simp] theorem errorCompletion_bOff (e : Err) (s : State) : (errorCompletion e s).bOff = s.bOff := rfl
@[simp] theorem errorCompletion_bLen (e : Err) (s : State) : (errorCompletion e s).bLen = s.bLen := rfl
@[simp] theorem errorCompletion_result (e : Err) (s : State) : (errorCompletion e s).result = s.result := rfl
@[simp] theorem errorCompletion_outLen (e : Err) (s : State) : (errorCompletion e s).outLen = s.outLen := rfl
@[simp] theorem errorCompletion_ctIndex (e : Err) (s : State) : (errorCompletion e s).ctIndex = s.ctIndex := rfl
@[simp] theorem errorCompletion_ctTagLen (e : Err) (s : State) : (errorCompletion e s).ctTagLen = s.ctTagLen := rfl
@[simp] theorem errorCompletion_ctLen (e : Err) (s : State) : (errorCompletion e s).ctLen = s.ctLen := rfl
@[simp] theorem errorCompletion_ctDcrc (e : Err) (s : State) : (errorCompletion e s).ctDcrc = s.ctDcrc := rfl
@[simp] theorem errorCompletion_ctKind (e : Err) (s : State) : (errorCompletion e s).ctKind = s.ctKind := rfl
@[simp] theorem errorCompletion_ctab (e : Err) (s : State) : (errorCompletion e s).ctab = s.ctab := rfl
@[simp] theorem errorCompletion_ibuf (e : Err) (s : State) : (errorCompletion e s).ibuf = s.ibuf := rfl
@[simp] theorem errorCompletion_obuf (e : Err) (s : State) : (errorCompletion e s).obuf = s.obuf := rfl
@[simp] theorem errorCompletion_params (e : Err) (s : State) : (errorCompletion e s).params = s.params := rfl
@[simp] theorem errorCompletion_resetCount (e : Err) (s : State) : (errorCompletion e s).resetCount = s.resetCount := rfl
@[simp] theorem errorCompletion_pending (e : Err) (s : State) : (errorCompletion e s).pending = s.pending := rfl
@[simp] theorem errorCompletion_replies (e : Err) (s : State) : (errorCompletion e s).replies = s.replies := rfl

/-! ## successCompletion -/

@[simp] theorem successCompletion_status  (s : State) : (successCompletion s).status = s.status.afterSuccess := rfl
@[simp] theorem successCompletion_aOff  (s : State) : (successCompletion s).aOff = s.aOff := rfl
@[simp] theorem successCompletion_aLen  (s : State) : (successCompletion s).aLen = s.aLen := rfl
@[simp] theorem successCompletion_bOff  (s : State) : (successCompletion s).bOff = s.bOff := rfl
@[simp] theorem successCompletion_bLen  (s : State) : (successCompletion s).bLen = s.bLen := rfl
@[simp] theorem successCompletion_result  (s : State) : (successCompletion s).result = s.result := rfl
@[simp] theorem successCompletion_outLen  (s : State) : (successCompletion s).outLen = s.outLen := rfl
@[simp] theorem successCompletion_ctIndex  (s : State) : (successCompletion s).ctIndex = s.ctIndex := rfl
@[simp] theorem successCompletion_ctTagLen  (s : State) : (successCompletion s).ctTagLen = s.ctTagLen := rfl
@[simp] theorem successCompletion_ctLen  (s : State) : (successCompletion s).ctLen = s.ctLen := rfl
@[simp] theorem successCompletion_ctDcrc  (s : State) : (successCompletion s).ctDcrc = s.ctDcrc := rfl
@[simp] theorem successCompletion_ctKind  (s : State) : (successCompletion s).ctKind = s.ctKind := rfl
@[simp] theorem successCompletion_ctab  (s : State) : (successCompletion s).ctab = s.ctab := rfl
@[simp] theorem successCompletion_ibuf  (s : State) : (successCompletion s).ibuf = s.ibuf := rfl
@[simp] theorem successCompletion_obuf  (s : State) : (successCompletion s).obuf = s.obuf := rfl
@[simp] theorem successCompletion_params  (s : State) : (successCompletion s).params = s.params := rfl
@[simp] theorem successCompletion_resetCount  (s : State) : (successCompletion s).resetCount = s.resetCount := rfl
@[simp] theorem successCompletion_pending  (s : State) : (successCompletion s).pending = s.pending := rfl
@[simp] theorem successCompletion_replies  (s : State) : (successCompletion s).replies = s.replies := rfl

/-! ## writeOutput -/

@[simp] theorem writeOutput_status (o : Bytes) (s : State) : (writeOutput o s).status = s.status := rfl
@[simp] theorem writeOutput_aOff (o : Bytes) (s : State) : (writeOutput o s).aOff = s.aOff := rfl
@[simp] theorem writeOutput_aLen (o : Bytes) (s : State) : (writeOutput o s).aLen = s.aLen := rfl
@[simp] theorem writeOutput_bOff (o : Bytes) (s : State) : (writeOutput o s).bOff = s.bOff := rfl
@[simp] theorem writeOutput_bLen (o : Bytes) (s : State) : (writeOutput o s).bLen = s.bLen := rfl
@[simp] theorem writeOutput_result (o : Bytes) (s : State) : (writeOutput o s).result = s.result := rfl
@[simp] theorem writeOutput_outLen (o : Bytes) (s : State) : (writeOutput o s).outLen = wordOfNat o.length := rfl
@[simp] theorem writeOutput_ctIndex (o : Bytes) (s : State) : (writeOutput o s).ctIndex = s.ctIndex := rfl
@[simp] theorem writeOutput_ctTagLen (o : Bytes) (s : State) : (writeOutput o s).ctTagLen = s.ctTagLen := rfl
@[simp] theorem writeOutput_ctLen (o : Bytes) (s : State) : (writeOutput o s).ctLen = s.ctLen := rfl
@[simp] theorem writeOutput_ctDcrc (o : Bytes) (s : State) : (writeOutput o s).ctDcrc = s.ctDcrc := rfl
@[simp] theorem writeOutput_ctKind (o : Bytes) (s : State) : (writeOutput o s).ctKind = s.ctKind := rfl
@[simp] theorem writeOutput_ctab (o : Bytes) (s : State) : (writeOutput o s).ctab = s.ctab := rfl
@[simp] theorem writeOutput_ibuf (o : Bytes) (s : State) : (writeOutput o s).ibuf = s.ibuf := rfl
@[simp] theorem writeOutput_obuf (o : Bytes) (s : State) : (writeOutput o s).obuf = Memory.putBytes s.obuf 0 o := rfl
@[simp] theorem writeOutput_params (o : Bytes) (s : State) : (writeOutput o s).params = s.params := rfl
@[simp] theorem writeOutput_resetCount (o : Bytes) (s : State) : (writeOutput o s).resetCount = s.resetCount := rfl
@[simp] theorem writeOutput_pending (o : Bytes) (s : State) : (writeOutput o s).pending = s.pending := rfl
@[simp] theorem writeOutput_replies (o : Bytes) (s : State) : (writeOutput o s).replies = s.replies := rfl

/-! ## answer -/

@[simp] theorem answer_status (r : Reply) (s : State) : (answer r s).status = s.status := rfl
@[simp] theorem answer_aOff (r : Reply) (s : State) : (answer r s).aOff = s.aOff := rfl
@[simp] theorem answer_aLen (r : Reply) (s : State) : (answer r s).aLen = s.aLen := rfl
@[simp] theorem answer_bOff (r : Reply) (s : State) : (answer r s).bOff = s.bOff := rfl
@[simp] theorem answer_bLen (r : Reply) (s : State) : (answer r s).bLen = s.bLen := rfl
@[simp] theorem answer_result (r : Reply) (s : State) : (answer r s).result = s.result := rfl
@[simp] theorem answer_outLen (r : Reply) (s : State) : (answer r s).outLen = s.outLen := rfl
@[simp] theorem answer_ctIndex (r : Reply) (s : State) : (answer r s).ctIndex = s.ctIndex := rfl
@[simp] theorem answer_ctTagLen (r : Reply) (s : State) : (answer r s).ctTagLen = s.ctTagLen := rfl
@[simp] theorem answer_ctLen (r : Reply) (s : State) : (answer r s).ctLen = s.ctLen := rfl
@[simp] theorem answer_ctDcrc (r : Reply) (s : State) : (answer r s).ctDcrc = s.ctDcrc := rfl
@[simp] theorem answer_ctKind (r : Reply) (s : State) : (answer r s).ctKind = s.ctKind := rfl
@[simp] theorem answer_ctab (r : Reply) (s : State) : (answer r s).ctab = s.ctab := rfl
@[simp] theorem answer_ibuf (r : Reply) (s : State) : (answer r s).ibuf = s.ibuf := rfl
@[simp] theorem answer_obuf (r : Reply) (s : State) : (answer r s).obuf = s.obuf := rfl
@[simp] theorem answer_params (r : Reply) (s : State) : (answer r s).params = s.params := rfl
@[simp] theorem answer_resetCount (r : Reply) (s : State) : (answer r s).resetCount = s.resetCount := rfl
@[simp] theorem answer_pending (r : Reply) (s : State) : (answer r s).pending = s.pending := rfl
@[simp] theorem answer_replies (r : Reply) (s : State) : (answer r s).replies = s.replies ++ [r] := rfl

/-! ## pushEvent -/

@[simp] theorem pushEvent_status (e : Event) (s : State) : (pushEvent e s).status = s.status := rfl
@[simp] theorem pushEvent_aOff (e : Event) (s : State) : (pushEvent e s).aOff = s.aOff := rfl
@[simp] theorem pushEvent_aLen (e : Event) (s : State) : (pushEvent e s).aLen = s.aLen := rfl
@[simp] theorem pushEvent_bOff (e : Event) (s : State) : (pushEvent e s).bOff = s.bOff := rfl
@[simp] theorem pushEvent_bLen (e : Event) (s : State) : (pushEvent e s).bLen = s.bLen := rfl
@[simp] theorem pushEvent_result (e : Event) (s : State) : (pushEvent e s).result = s.result := rfl
@[simp] theorem pushEvent_outLen (e : Event) (s : State) : (pushEvent e s).outLen = s.outLen := rfl
@[simp] theorem pushEvent_ctIndex (e : Event) (s : State) : (pushEvent e s).ctIndex = s.ctIndex := rfl
@[simp] theorem pushEvent_ctTagLen (e : Event) (s : State) : (pushEvent e s).ctTagLen = s.ctTagLen := rfl
@[simp] theorem pushEvent_ctLen (e : Event) (s : State) : (pushEvent e s).ctLen = s.ctLen := rfl
@[simp] theorem pushEvent_ctDcrc (e : Event) (s : State) : (pushEvent e s).ctDcrc = s.ctDcrc := rfl
@[simp] theorem pushEvent_ctKind (e : Event) (s : State) : (pushEvent e s).ctKind = s.ctKind := rfl
@[simp] theorem pushEvent_ctab (e : Event) (s : State) : (pushEvent e s).ctab = s.ctab := rfl
@[simp] theorem pushEvent_ibuf (e : Event) (s : State) : (pushEvent e s).ibuf = s.ibuf := rfl
@[simp] theorem pushEvent_obuf (e : Event) (s : State) : (pushEvent e s).obuf = s.obuf := rfl
@[simp] theorem pushEvent_params (e : Event) (s : State) : (pushEvent e s).params = s.params := rfl
@[simp] theorem pushEvent_resetCount (e : Event) (s : State) : (pushEvent e s).resetCount = s.resetCount := rfl
@[simp] theorem pushEvent_pending (e : Event) (s : State) : (pushEvent e s).pending = e :: s.pending := rfl
@[simp] theorem pushEvent_replies (e : Event) (s : State) : (pushEvent e s).replies = s.replies := rfl

/-! ## applyReset -/

@[simp] theorem applyReset_status  (s : State) : (applyReset s).status = ⟨0x00, false, false⟩ := rfl
@[simp] theorem applyReset_aOff  (s : State) : (applyReset s).aOff = 0 := rfl
@[simp] theorem applyReset_aLen  (s : State) : (applyReset s).aLen = 0 := rfl
@[simp] theorem applyReset_bOff  (s : State) : (applyReset s).bOff = 0 := rfl
@[simp] theorem applyReset_bLen  (s : State) : (applyReset s).bLen = 0 := rfl
@[simp] theorem applyReset_result  (s : State) : (applyReset s).result = 0 := rfl
@[simp] theorem applyReset_outLen  (s : State) : (applyReset s).outLen = 0 := rfl
@[simp] theorem applyReset_ctIndex  (s : State) : (applyReset s).ctIndex = 0 := rfl
@[simp] theorem applyReset_ctTagLen  (s : State) : (applyReset s).ctTagLen = 0 := rfl
@[simp] theorem applyReset_ctLen  (s : State) : (applyReset s).ctLen = 0 := rfl
@[simp] theorem applyReset_ctDcrc  (s : State) : (applyReset s).ctDcrc = 0 := rfl
@[simp] theorem applyReset_ctKind  (s : State) : (applyReset s).ctKind = 0 := rfl
@[simp] theorem applyReset_ctab  (s : State) : (applyReset s).ctab = [] := rfl
@[simp] theorem applyReset_ibuf  (s : State) : (applyReset s).ibuf = [] := rfl
@[simp] theorem applyReset_obuf  (s : State) : (applyReset s).obuf = [] := rfl
@[simp] theorem applyReset_params  (s : State) : (applyReset s).params = s.params := rfl
@[simp] theorem applyReset_resetCount  (s : State) : (applyReset s).resetCount = s.resetCount + 1 := rfl
@[simp] theorem applyReset_pending  (s : State) : (applyReset s).pending = s.pending := rfl
@[simp] theorem applyReset_replies  (s : State) : (applyReset s).replies = s.replies := rfl

/-! ## resetWith -/

@[simp] theorem resetWith_status (p : Params) (n : Nat) : (State.resetWith p n).status = ⟨0x00, false, false⟩ := rfl
@[simp] theorem resetWith_aOff (p : Params) (n : Nat) : (State.resetWith p n).aOff = 0 := rfl
@[simp] theorem resetWith_aLen (p : Params) (n : Nat) : (State.resetWith p n).aLen = 0 := rfl
@[simp] theorem resetWith_bOff (p : Params) (n : Nat) : (State.resetWith p n).bOff = 0 := rfl
@[simp] theorem resetWith_bLen (p : Params) (n : Nat) : (State.resetWith p n).bLen = 0 := rfl
@[simp] theorem resetWith_result (p : Params) (n : Nat) : (State.resetWith p n).result = 0 := rfl
@[simp] theorem resetWith_outLen (p : Params) (n : Nat) : (State.resetWith p n).outLen = 0 := rfl
@[simp] theorem resetWith_ctIndex (p : Params) (n : Nat) : (State.resetWith p n).ctIndex = 0 := rfl
@[simp] theorem resetWith_ctTagLen (p : Params) (n : Nat) : (State.resetWith p n).ctTagLen = 0 := rfl
@[simp] theorem resetWith_ctLen (p : Params) (n : Nat) : (State.resetWith p n).ctLen = 0 := rfl
@[simp] theorem resetWith_ctDcrc (p : Params) (n : Nat) : (State.resetWith p n).ctDcrc = 0 := rfl
@[simp] theorem resetWith_ctKind (p : Params) (n : Nat) : (State.resetWith p n).ctKind = 0 := rfl
@[simp] theorem resetWith_ctab (p : Params) (n : Nat) : (State.resetWith p n).ctab = [] := rfl
@[simp] theorem resetWith_ibuf (p : Params) (n : Nat) : (State.resetWith p n).ibuf = [] := rfl
@[simp] theorem resetWith_obuf (p : Params) (n : Nat) : (State.resetWith p n).obuf = [] := rfl
@[simp] theorem resetWith_params (p : Params) (n : Nat) : (State.resetWith p n).params = p := rfl
@[simp] theorem resetWith_resetCount (p : Params) (n : Nat) : (State.resetWith p n).resetCount = n := rfl
@[simp] theorem resetWith_pending (p : Params) (n : Nat) : (State.resetWith p n).pending = [] := rfl
@[simp] theorem resetWith_replies (p : Params) (n : Nat) : (State.resetWith p n).replies = [] := rfl

/-! ## ibufWrite -/

@[simp] theorem ibufWrite_status (a : Word) (b : Byte) (s : State) : (ibufWrite a b s).status = s.status := by
  unfold ibufWrite; split <;> rfl
@[simp] theorem ibufWrite_aOff (a : Word) (b : Byte) (s : State) : (ibufWrite a b s).aOff = s.aOff := by
  unfold ibufWrite; split <;> rfl
@[simp] theorem ibufWrite_aLen (a : Word) (b : Byte) (s : State) : (ibufWrite a b s).aLen = s.aLen := by
  unfold ibufWrite; split <;> rfl
@[simp] theorem ibufWrite_bOff (a : Word) (b : Byte) (s : State) : (ibufWrite a b s).bOff = s.bOff := by
  unfold ibufWrite; split <;> rfl
@[simp] theorem ibufWrite_bLen (a : Word) (b : Byte) (s : State) : (ibufWrite a b s).bLen = s.bLen := by
  unfold ibufWrite; split <;> rfl
@[simp] theorem ibufWrite_result (a : Word) (b : Byte) (s : State) : (ibufWrite a b s).result = s.result := by
  unfold ibufWrite; split <;> rfl
@[simp] theorem ibufWrite_outLen (a : Word) (b : Byte) (s : State) : (ibufWrite a b s).outLen = s.outLen := by
  unfold ibufWrite; split <;> rfl
@[simp] theorem ibufWrite_ctIndex (a : Word) (b : Byte) (s : State) : (ibufWrite a b s).ctIndex = s.ctIndex := by
  unfold ibufWrite; split <;> rfl
@[simp] theorem ibufWrite_ctTagLen (a : Word) (b : Byte) (s : State) : (ibufWrite a b s).ctTagLen = s.ctTagLen := by
  unfold ibufWrite; split <;> rfl
@[simp] theorem ibufWrite_ctLen (a : Word) (b : Byte) (s : State) : (ibufWrite a b s).ctLen = s.ctLen := by
  unfold ibufWrite; split <;> rfl
@[simp] theorem ibufWrite_ctDcrc (a : Word) (b : Byte) (s : State) : (ibufWrite a b s).ctDcrc = s.ctDcrc := by
  unfold ibufWrite; split <;> rfl
@[simp] theorem ibufWrite_ctKind (a : Word) (b : Byte) (s : State) : (ibufWrite a b s).ctKind = s.ctKind := by
  unfold ibufWrite; split <;> rfl
@[simp] theorem ibufWrite_ctab (a : Word) (b : Byte) (s : State) : (ibufWrite a b s).ctab = s.ctab := by
  unfold ibufWrite; split <;> rfl
@[simp] theorem ibufWrite_ibuf (a : Word) (b : Byte) (s : State) : (ibufWrite a b s).ibuf = if a.toNat < s.params.ibufSize then Memory.put s.ibuf a.toNat b else s.ibuf := by
  unfold ibufWrite; split <;> rfl
@[simp] theorem ibufWrite_obuf (a : Word) (b : Byte) (s : State) : (ibufWrite a b s).obuf = s.obuf := by
  unfold ibufWrite; split <;> rfl
@[simp] theorem ibufWrite_params (a : Word) (b : Byte) (s : State) : (ibufWrite a b s).params = s.params := by
  unfold ibufWrite; split <;> rfl
@[simp] theorem ibufWrite_resetCount (a : Word) (b : Byte) (s : State) : (ibufWrite a b s).resetCount = s.resetCount := by
  unfold ibufWrite; split <;> rfl
@[simp] theorem ibufWrite_pending (a : Word) (b : Byte) (s : State) : (ibufWrite a b s).pending = s.pending := by
  unfold ibufWrite; split <;> rfl
@[simp] theorem ibufWrite_replies (a : Word) (b : Byte) (s : State) : (ibufWrite a b s).replies = s.replies := by
  unfold ibufWrite; split <;> rfl

/-! ## csrStore -/

@[simp] theorem csrStore_result (r : Csr) (v : Word) (s : State) : (csrStore r v s).result = s.result := by
  cases r <;> rfl
@[simp] theorem csrStore_outLen (r : Csr) (v : Word) (s : State) : (csrStore r v s).outLen = s.outLen := by
  cases r <;> rfl
@[simp] theorem csrStore_ctTagLen (r : Csr) (v : Word) (s : State) : (csrStore r v s).ctTagLen = s.ctTagLen := by
  cases r <;> rfl
@[simp] theorem csrStore_ctLen (r : Csr) (v : Word) (s : State) : (csrStore r v s).ctLen = s.ctLen := by
  cases r <;> rfl
@[simp] theorem csrStore_ctDcrc (r : Csr) (v : Word) (s : State) : (csrStore r v s).ctDcrc = s.ctDcrc := by
  cases r <;> rfl
@[simp] theorem csrStore_ctKind (r : Csr) (v : Word) (s : State) : (csrStore r v s).ctKind = s.ctKind := by
  cases r <;> rfl
@[simp] theorem csrStore_ctab (r : Csr) (v : Word) (s : State) : (csrStore r v s).ctab = s.ctab := by
  cases r <;> rfl
@[simp] theorem csrStore_ibuf (r : Csr) (v : Word) (s : State) : (csrStore r v s).ibuf = s.ibuf := by
  cases r <;> rfl
@[simp] theorem csrStore_obuf (r : Csr) (v : Word) (s : State) : (csrStore r v s).obuf = s.obuf := by
  cases r <;> rfl
@[simp] theorem csrStore_params (r : Csr) (v : Word) (s : State) : (csrStore r v s).params = s.params := by
  cases r <;> rfl
@[simp] theorem csrStore_resetCount (r : Csr) (v : Word) (s : State) : (csrStore r v s).resetCount = s.resetCount := by
  cases r <;> rfl
@[simp] theorem csrStore_pending (r : Csr) (v : Word) (s : State) : (csrStore r v s).pending = s.pending := by
  cases r <;> rfl
@[simp] theorem csrStore_replies (r : Csr) (v : Word) (s : State) : (csrStore r v s).replies = s.replies := by
  cases r <;> rfl

/-! ## STATUS -/

@[simp] theorem afterError_errCode (e : Err) : (Status.afterError e).errCode = e.code := rfl
@[simp] theorem afterError_err (e : Err) : (Status.afterError e).err = true := rfl
@[simp] theorem afterError_errSeen (e : Err) : (Status.afterError e).errSeen = true := rfl
@[simp] theorem afterSuccess_errCode (st : Status) : st.afterSuccess.errCode = 0x00 := rfl
@[simp] theorem afterSuccess_err (st : Status) : st.afterSuccess.err = false := rfl
@[simp] theorem afterSuccess_errSeen (st : Status) : st.afterSuccess.errSeen = st.errSeen := rfl

@[simp] theorem hostWrite_errCode (v : Word) (st : Status) : (st.hostWrite v).errCode = st.errCode := by
  unfold Status.hostWrite; split <;> rfl
@[simp] theorem hostWrite_err (v : Word) (st : Status) : (st.hostWrite v).err = st.err := by
  unfold Status.hostWrite; split <;> rfl
@[simp] theorem hostWrite_errSeen (v : Word) (st : Status) :
    (st.hostWrite v).errSeen = (st.errSeen && !v.getLsbD 31) := by
  by_cases h : v.getLsbD 31 = true <;> simp only [Status.hostWrite, h] <;> simp

end Sys2Proof.Machine
end

