-- ==== Sys2Proof/Laws/Ops.lean ====
section
/-! SUPPORT. What the shared operations do, said once each: byte order, reading and writing the buffers, region operands,
and the two completions. -/

namespace Sys2Proof.Machine

/-! ## Byte order -/

@[simp] theorem be32_length (v : Word) : (be32 v).length = 4 := rfl

theorem rdBe32_four (a b c d : Byte) :
    rdBe32 [a, b, c, d] = a.toNat * 2 ^ 24 + b.toNat * 2 ^ 16 + c.toNat * 2 ^ 8 + d.toNat := by
  simp only [rdBe32, List.foldl_cons, List.foldl_nil]; ring

/-- Reading back the big-endian bytes of a word gives the word. -/
@[simp] theorem rdBe32_be32 (v : Word) : rdBe32 (be32 v) = v.toNat := by
  rw [be32, rdBe32_four]
  simp only [BitVec.extractLsb'_toNat, Nat.shiftRight_eq_div_pow]
  have := v.isLt
  omega

theorem rdBe32_lt {s : Bytes} (h : s.length = 4) : rdBe32 s < 2 ^ 32 := by
  match s, h with
  | [a, b, c, d], _ =>
    rw [rdBe32_four]
    have := a.isLt; have := b.isLt; have := c.isLt; have := d.isLt
    omega

theorem be32_inj {s t : Bytes} (hs : s.length = 4) (ht : t.length = 4) (h : rdBe32 s = rdBe32 t) : s = t := by
  match s, t, hs, ht with
  | [a, b, c, d], [a', b', c', d'], _, _ =>
    rw [rdBe32_four, rdBe32_four] at h
    have := a.isLt; have := b.isLt; have := c.isLt; have := d.isLt
    have := a'.isLt; have := b'.isLt; have := c'.isLt; have := d'.isLt
    have h1 : a.toNat = a'.toNat := by omega
    have h2 : b.toNat = b'.toNat := by omega
    have h3 : c.toNat = c'.toNat := by omega
    have h4 : d.toNat = d'.toNat := by omega
    rw [BitVec.toNat_inj] at h1 h2 h3 h4
    subst h1 h2 h3 h4; rfl

@[simp] theorem wordOfNat_toNat {n : Nat} (h : n < 2 ^ 32) : (wordOfNat n).toNat = n := by
  simp only [wordOfNat, BitVec.toNat_ofNat]; omega

/-- The big-endian bytes of what four bytes read as are the four bytes. -/
theorem be32_rdBe32 {s : Bytes} (h : s.length = 4) : be32 (wordOfNat (rdBe32 s)) = s :=
  be32_inj (be32_length _) h (by rw [rdBe32_be32, wordOfNat_toNat (rdBe32_lt h)])

/-! ## Buffers -/

@[simp] theorem ibufBytes_length (s : State) (a n : Nat) : (ibufBytes s a n).length = n := by
  induction n generalizing a with
  | zero => rfl
  | succ n ih => simp [ibufBytes, ih]

theorem ibufBytes_getElem? (s : State) (a : Nat) {n k : Nat} (h : k < n) :
    (ibufBytes s a n)[k]? = some (ibufByte s (a + k)) := by
  induction n generalizing a k with
  | zero => omega
  | succ n ih =>
    cases k with
    | zero => simp [ibufBytes]
    | succ k =>
      rw [ibufBytes, List.getElem?_cons_succ, ih (a + 1) (by omega)]
      congr 2; omega

/-- The bytes of a range of IBUF depend on the bytes of the range alone. -/
theorem ibufBytes_congr {s t : State} {a n : Nat} (h : ∀ x, a ≤ x → x < a + n → ibufByte s x = ibufByte t x) :
    ibufBytes s a n = ibufBytes t a n := by
  induction n generalizing a with
  | zero => rfl
  | succ n ih =>
    rw [ibufBytes, ibufBytes, h a (by omega) (by omega), ih fun x h1 h2 => h x (by omega) (by omega)]

/-- The bytes of a range of OBUF depend on the bytes of the range alone. -/
theorem obufBytes_congr {s t : State} {a n : Nat} (h : ∀ x, a ≤ x → x < a + n → obufByte s x = obufByte t x) :
    obufBytes s a n = obufBytes t a n := by
  induction n generalizing a with
  | zero => rfl
  | succ n ih =>
    rw [obufBytes, obufBytes, h a (by omega) (by omega), ih fun x h1 h2 => h x (by omega) (by omega)]

/-- Reading back a range of OBUF whose bytes are known. -/
theorem obufBytes_eq {s : State} {a : Nat} {o : Bytes} (h : ∀ k b, o[k]? = some b → obufByte s (a + k) = b) :
    obufBytes s a o.length = o := by
  induction o generalizing a with
  | nil => rfl
  | cons b o ih =>
    rw [List.length_cons, obufBytes, ih (a := a + 1) fun k b' hk => ?_]
    · have := h 0 b (by simp)
      rw [Nat.add_zero] at this
      rw [this]
    · have := h (k + 1) b' (by simpa using hk)
      rwa [show a + 1 + k = a + (k + 1) by omega]

/-- What an output leaves at every address of OBUF. -/
theorem obufByte_writeOutput (o : Bytes) (s : State) (a : Nat) :
    obufByte (writeOutput o s) a = if h : a < o.length then o[a] else obufByte s a := by
  unfold obufByte
  rw [writeOutput_obuf, writeOutput_resetCount, Memory.byteAt?_putBytes]
  by_cases h : a < o.length
  · simp [h]
  · simp [h]

theorem obufBytes_writeOutput (o : Bytes) (s : State) : obufBytes (writeOutput o s) 0 o.length = o := by
  refine obufBytes_eq fun k b hk => ?_
  obtain ⟨hlt, hb⟩ := List.getElem?_eq_some_iff.1 hk
  rw [Nat.zero_add, obufByte_writeOutput, dif_pos hlt, hb]

theorem obufByte_writeOutput_above {o : Bytes} {s : State} {a : Nat} (h : o.length ≤ a) :
    obufByte (writeOutput o s) a = obufByte s a := by
  rw [obufByte_writeOutput, dif_neg (by omega)]

/-! ## Completions -/

@[simp] theorem complete_ok (s t : State) : complete s (.ok t) = .next (successCompletion t) := rfl

@[simp] theorem complete_error (s : State) (e : Err) : complete s (.error e) = .next (errorCompletion e s) := rfl

/-- A command ends in one of two ways. -/
theorem complete_cases {s t : State} {r : Except Err State} (h : complete s r = .next t) :
    (∃ u, r = .ok u ∧ t = successCompletion u) ∨ ∃ e, r = .error e ∧ t = errorCompletion e s := by
  cases r with
  | ok u => exact .inl ⟨u, rfl, by simpa using h.symm⟩
  | error e => exact .inr ⟨e, rfl, by simpa using h.symm⟩

theorem complete_total (s : State) (r : Except Err State) : ∃ t, complete s r = .next t := by
  cases r <;> exact ⟨_, rfl⟩

theorem code_ne_zero (e : Err) : e.code ≠ 0x00 := by cases e <;> decide

/-! ## Regions -/

theorem region_ok {s : State} {off n : Word} (h : off.toNat + n.toNat ≤ s.params.ibufSize) :
    region s off n = .ok (ibufBytes s off.toNat n.toNat) := by
  rw [region, if_neg (by omega)]

theorem region_error {s : State} {off n : Word} (h : ¬ off.toNat + n.toNat ≤ s.params.ibufSize) :
    region s off n = .error .range := by
  rw [region, if_pos (by omega)]

theorem regionA_ok {s : State} (h : s.aOff.toNat + s.aLen.toNat ≤ s.params.ibufSize) :
    regionA s = .ok (ibufBytes s s.aOff.toNat s.aLen.toNat) := region_ok h

theorem regionB_ok {s : State} (h : s.bOff.toNat + s.bLen.toNat ≤ s.params.ibufSize) :
    regionB s = .ok (ibufBytes s s.bOff.toNat s.bLen.toNat) := region_ok h

theorem regionB_error {s : State} (h : ¬ s.bOff.toNat + s.bLen.toNat ≤ s.params.ibufSize) :
    regionB s = .error .range := region_error h

theorem regionsAB_ok {s : State} (ha : s.aOff.toNat + s.aLen.toNat ≤ s.params.ibufSize)
    (hb : s.bOff.toNat + s.bLen.toNat ≤ s.params.ibufSize) :
    regionsAB s =
      .ok (ibufBytes s s.aOff.toNat s.aLen.toNat, ibufBytes s s.bOff.toNat s.bLen.toNat) := by
  rw [regionsAB, regionA_ok ha, regionB_ok hb]

theorem regionsAB_error {s : State} (h : ¬ s.aOff.toNat + s.aLen.toNat ≤ s.params.ibufSize ∨
    ¬ s.bOff.toNat + s.bLen.toNat ≤ s.params.ibufSize) : regionsAB s = .error .range := by
  by_cases ha : s.aOff.toNat + s.aLen.toNat ≤ s.params.ibufSize
  · rw [regionsAB, regionA_ok ha, regionB_error (h.resolve_left (not_not_intro ha))]
  · rw [regionsAB, regionA, region_error ha]

/-- The region operands raise RANGE and nothing else. -/
theorem regionB_cases (s : State) : regionB s = .error .range ∨
    (s.bOff.toNat + s.bLen.toNat ≤ s.params.ibufSize ∧
      regionB s = .ok (ibufBytes s s.bOff.toNat s.bLen.toNat)) := by
  by_cases h : s.bOff.toNat + s.bLen.toNat ≤ s.params.ibufSize
  · exact .inr ⟨h, regionB_ok h⟩
  · exact .inl (regionB_error h)

theorem regionsAB_cases (s : State) : regionsAB s = .error .range ∨
    (s.aOff.toNat + s.aLen.toNat ≤ s.params.ibufSize ∧ s.bOff.toNat + s.bLen.toNat ≤ s.params.ibufSize ∧
      regionsAB s = .ok (ibufBytes s s.aOff.toNat s.aLen.toNat, ibufBytes s s.bOff.toNat s.bLen.toNat)) := by
  by_cases ha : s.aOff.toNat + s.aLen.toNat ≤ s.params.ibufSize
  · by_cases hb : s.bOff.toNat + s.bLen.toNat ≤ s.params.ibufSize
    · exact .inr ⟨ha, hb, regionsAB_ok ha hb⟩
    · exact .inl (regionsAB_error (.inr hb))
  · exact .inl (regionsAB_error (.inl ha))

end Sys2Proof.Machine
end

