-- ==== Sys2Proof/Laws/ChunkCodec.lean ====
section
/-! SUPPORT. One turn of the parse loop, forwards and backwards, and that its bound on the turns does not matter. -/

namespace Sys2Proof.Machine

/-- On a stream that begins with a whole record, one turn takes that record. -/
theorem parseRecords_record {c : Chunk} (ht : c.tag.length = 4) (hd : c.data.length < 2 ^ 32) (n : Nat) (rest : Bytes) :
    parseRecords (n + 1) (be32 (wordOfNat c.data.length) ++ c.tag ++ c.data ++ be32 c.dcrc ++ rest) =
      match parseRecords n rest with
      | .error e => .error e
      | .ok cs => .ok (c :: cs) := by
  obtain ⟨tag, data, dcrc⟩ := c
  simp only at ht hd ⊢
  have h4 : (be32 (wordOfNat data.length)).length = 4 := rfl
  have hs : be32 (wordOfNat data.length) ++ tag ++ data ++ be32 dcrc ++ rest =
      be32 (wordOfNat data.length) ++ (tag ++ (data ++ (be32 dcrc ++ rest))) := by simp
  have hlen : rdBe32 ((be32 (wordOfNat data.length) ++ (tag ++ (data ++ (be32 dcrc ++ rest)))).take 4) = data.length := by
    rw [List.take_left' h4, rdBe32_be32, wordOfNat_toNat hd]
  have hd4 : (be32 (wordOfNat data.length) ++ (tag ++ (data ++ (be32 dcrc ++ rest)))).drop 4 =
      tag ++ (data ++ (be32 dcrc ++ rest)) := List.drop_left' h4
  have hd8 : (be32 (wordOfNat data.length) ++ (tag ++ (data ++ (be32 dcrc ++ rest)))).drop 8 =
      data ++ (be32 dcrc ++ rest) := by
    rw [show (8 : Nat) = 4 + 4 from rfl, ← List.drop_drop, hd4, List.drop_left' ht]
  rw [hs, parseRecords, hlen, hd4, hd8, if_neg (by simp [be32]),
    if_neg (by simp only [List.length_append, h4, ht]; omega),
    if_neg (by simp only [List.length_append, be32_length]; omega)]
  have hrest : (data ++ (be32 dcrc ++ rest)).drop (data.length + 4) = rest := by
    rw [← List.drop_drop, List.drop_left' rfl, List.drop_left' (be32_length dcrc)]
  have hcrc : wordOfNat (rdBe32 (((data ++ (be32 dcrc ++ rest)).drop data.length).take 4)) = dcrc := by
    rw [List.drop_left' rfl, List.take_left' (be32_length dcrc), rdBe32_be32]
    exact BitVec.ofNat_toNat _ _
  have htag : (tag ++ (data ++ (be32 dcrc ++ rest))).take 4 = tag := List.take_left' ht
  have hdata : (data ++ (be32 dcrc ++ rest)).take data.length = data := List.take_left' rfl
  cases hp : parseRecords n rest with
  | error e => simp only [hrest, hp]
  | ok cs => simp only [hrest, hp, hcrc, htag, hdata]

/-- A turn that succeeds found the end of the stream, or a whole record and then the rest. -/
theorem parseRecords_ok {n : Nat} {s : Bytes} {cs : List Chunk} (h : parseRecords (n + 1) s = .ok cs) :
    (s = [] ∧ cs = []) ∨
    ∃ c cs' rest, c.tag.length = 4 ∧ c.data.length < 2 ^ 32 ∧ cs = c :: cs' ∧
      s = be32 (wordOfNat c.data.length) ++ c.tag ++ c.data ++ be32 c.dcrc ++ rest ∧
      parseRecords n rest = .ok cs' := by
  unfold parseRecords at h
  split at h
  · rename_i hs; exact .inl ⟨hs, by simpa using h.symm⟩
  split at h
  · cases h
  rename_i h8
  split at h
  · cases h
  rename_i hl
  split at h
  · cases h
  rename_i cs' hcs
  have hl4 : (s.take 4).length = 4 := by rw [List.length_take]; omega
  have hL := rdBe32_lt hl4
  rw [List.length_drop] at hl
  refine .inr ⟨_, cs', (s.drop 8).drop (rdBe32 (s.take 4) + 4), ?_, ?_, (Except.ok.inj h).symm, ?_, hcs⟩
  · simp only [List.length_take, List.length_drop]; omega
  · simp only [List.length_take, List.length_drop]; omega
  · have e1 : ((s.drop 8).take (rdBe32 (s.take 4))).length = rdBe32 (s.take 4) := by
      simp only [List.length_take, List.length_drop]; omega
    have hc4 : (((s.drop 8).drop (rdBe32 (s.take 4))).take 4).length = 4 := by
      simp only [List.length_take, List.length_drop]; omega
    simp only [e1]
    rw [be32_rdBe32 hl4, be32_rdBe32 hc4]
    simp only [List.append_assoc]
    rw [← List.drop_drop, List.take_append_drop, List.take_append_drop,
      show s.drop 8 = (s.drop 4).drop 4 by rw [List.drop_drop], List.take_append_drop, List.take_append_drop]

/-- Any bound on the turns that is at least the number of bytes left gives the same answer. -/
theorem parseRecords_fuel {n m : Nat} {s : Bytes} (hn : s.length ≤ n) (hm : s.length ≤ m) :
    parseRecords n s = parseRecords m s := by
  induction n generalizing m s with
  | zero =>
    have hs : s = [] := List.length_eq_zero_iff.1 (by omega)
    subst hs
    cases m <;> simp [parseRecords]
  | succ n ih =>
    cases m with
    | zero =>
      have hs : s = [] := List.length_eq_zero_iff.1 (by omega)
      subst hs; simp [parseRecords]
    | succ m =>
      unfold parseRecords
      split
      · rfl
      split
      · rfl
      split
      · rfl
      rw [ih (m := m)] <;> simp only [List.length_drop] <;> omega

/-! ## Serialize -/

theorem serialize_ok {cs : List Chunk} (h : ∀ c ∈ cs, c.tag.length = 4) :
    serialize cs = .ok (sig ++ cs.flatMap recordBytes) := by
  rw [serialize, if_pos (by simpa using h)]

theorem serialize_tagLength {cs : List Chunk} (h : ∃ c ∈ cs, c.tag.length ≠ 4) : serialize cs = .error .tagLength := by
  rw [serialize, if_neg (by simpa using h)]

theorem serialize_ok_iff {cs : List Chunk} {o : Bytes} :
    serialize cs = .ok o ↔ (∀ c ∈ cs, c.tag.length = 4) ∧ o = sig ++ cs.flatMap recordBytes := by
  constructor
  · intro h
    unfold serialize at h
    split at h
    · rename_i ht; exact ⟨by simpa using ht, by simpa using h.symm⟩
    · cases h
  · rintro ⟨ht, rfl⟩; exact serialize_ok ht

/-! ## Tags -/

theorem kind_idat {tag : Bytes} : kind tag = .idat ↔ tag = tagIdat := by
  unfold kind; split <;> simp [*]
  split <;> simp

theorem kind_cgbi {tag : Bytes} : kind tag = .cgbi ↔ tag = tagCgbi := by
  unfold kind
  split
  · rename_i h; subst h; simp [tagIdat, tagCgbi]
  · split <;> simp [*]

end Sys2Proof.Machine
end

