-- ==== Sys2Proof/Laws/Commands.lean ====
section
/-! SUPPORT. Everything a command can do, said once: `commandOf` is its rule without the completion, and one lemma per
rule says what it answers when it succeeds. -/

namespace Sys2Proof.Machine

/-- The rule of each command: the state with its results, or the first error it raises. -/
def commandOf (i : Instr) (s : State) : Except Err State :=
  match i with
  | .nop => .ok s
  | .crc32 => checksumCommand crc32 s
  | .adler32 => checksumCommand adler32 s
  | .parse => parseCommand s
  | .serialize => serializeCommand s
  | .ctClear => .ok { s with ctab := [] }
  | .ctAppend => appendCommand s
  | .ctRead => readCommand s
  | .reframe => reframeCommand s
  | .decrush => decrushCommand s

/-- Every command is its rule followed by a completion. -/
theorem exec_eq (i : Instr) (s : State) : exec i s = complete s (commandOf i s) := by cases i <;> rfl

/-- How a command word that is written to CMD can end. -/
theorem csrWrite_cmd_cases {v : Word} {s t : State} (h : csrWrite 0 v s = .next t) :
    (∃ i u, decode v = .ok i ∧ commandOf i s = .ok u ∧ t = successCompletion u) ∨
    (∃ i e, decode v = .ok i ∧ commandOf i s = .error e ∧ t = errorCompletion e s) ∨
    ((∃ r, decode v = .error r) ∧ t = errorCompletion .illegalCmd s) := by
  change runCommand v s = .next t at h
  unfold runCommand at h
  cases hd : decode v with
  | error r => rw [hd] at h; exact .inr (.inr ⟨⟨r, rfl⟩, by simpa using h.symm⟩)
  | ok i =>
    rw [hd] at h
    simp only [exec_eq] at h
    rcases complete_cases h with ⟨u, hu, ht⟩ | ⟨e, he, ht⟩
    · exact .inl ⟨i, u, rfl, hu, ht⟩
    · exact .inr (.inl ⟨i, e, rfl, he, ht⟩)

/-! ## The rule of each command -/

theorem checksumCommand_ok {f : Bytes → Word} {s t : State} (h : checksumCommand f s = .ok t) :
    s.aOff.toNat + s.aLen.toNat ≤ s.params.ibufSize ∧ s.bOff.toNat + s.bLen.toNat ≤ s.params.ibufSize ∧
    t = { s with
      result := f (ibufBytes s s.aOff.toNat s.aLen.toNat ++ ibufBytes s s.bOff.toNat s.bLen.toNat) } := by
  unfold checksumCommand at h
  rcases regionsAB_cases s with hr | ⟨ha, hb, hr⟩ <;> rw [hr] at h
  · cases h
  · exact ⟨ha, hb, by simpa using h.symm⟩

theorem checksumCommand_error {f : Bytes → Word} {s : State} {e : Err} (h : checksumCommand f s = .error e) :
    e = .range := by
  unfold checksumCommand at h
  rcases regionsAB_cases s with hr | ⟨ha, hb, hr⟩ <;> rw [hr] at h <;> simp at h
  exact h.symm

theorem fitsCtab_iff {p : Params} {cs : List Chunk} :
    fitsCtab p cs = true ↔ cs.length ≤ p.maxChunks ∧ ctabBytes cs ≤ p.ctabBytes := by
  simp [fitsCtab]

theorem parseCommand_ok {s t : State} (h : parseCommand s = .ok t) :
    ∃ cs, s.bOff.toNat + s.bLen.toNat ≤ s.params.ibufSize ∧
      parse (ibufBytes s s.bOff.toNat s.bLen.toNat) = .ok cs ∧ cs.length ≤ s.params.maxChunks ∧
      ctabBytes cs ≤ s.params.ctabBytes ∧ t = { s with ctab := cs } := by
  unfold parseCommand at h
  rcases regionB_cases s with hr | ⟨hb, hr⟩ <;> rw [hr] at h
  · cases h
  · simp only at h
    split at h
    · cases h
    · rename_i cs hp
      split at h
      · rename_i hf
        obtain ⟨h1, h2⟩ := fitsCtab_iff.1 hf
        exact ⟨cs, hb, hp, h1, h2, by simpa using h.symm⟩
      · cases h

theorem serializeCommand_ok {s t : State} (h : serializeCommand s = .ok t) :
    ∃ o, serialize s.ctab = .ok o ∧ o.length ≤ s.params.obufSize ∧ t = writeOutput o s := by
  unfold serializeCommand at h
  split at h
  · cases h
  · rename_i o ho
    split at h
    · cases h
    · exact ⟨o, ho, by omega, by simpa using h.symm⟩

@[simp] theorem ctabBytes_nil : ctabBytes [] = 0 := rfl

@[simp] theorem ctabBytes_append (cs ds : List Chunk) : ctabBytes (cs ++ ds) = ctabBytes cs + ctabBytes ds := by
  simp [ctabBytes]

@[simp] theorem ctabBytes_cons (c : Chunk) (cs : List Chunk) :
    ctabBytes (c :: cs) = c.tag.length + c.data.length + ctabBytes cs := by
  simp [ctabBytes, chunkBytes]

theorem fitsCtab_append_fresh (p : Params) (cs : List Chunk) (t d : Bytes) :
    fitsCtab p (cs ++ [freshChunk t d]) = true ↔
      cs.length + 1 ≤ p.maxChunks ∧ ctabBytes cs + t.length + d.length ≤ p.ctabBytes := by
  rw [fitsCtab_iff]; simp [freshChunk, Nat.add_assoc]

theorem appendCommand_ok {s t : State} (h : appendCommand s = .ok t) :
    s.aOff.toNat + s.aLen.toNat ≤ s.params.ibufSize ∧ s.bOff.toNat + s.bLen.toNat ≤ s.params.ibufSize ∧
    s.ctab.length + 1 ≤ s.params.maxChunks ∧
    ctabBytes s.ctab + s.aLen.toNat + s.bLen.toNat ≤ s.params.ctabBytes ∧
    t = { s with
      ctab := s.ctab ++
        [freshChunk (ibufBytes s s.aOff.toNat s.aLen.toNat) (ibufBytes s s.bOff.toNat s.bLen.toNat)] } := by
  unfold appendCommand at h
  rcases regionsAB_cases s with hr | ⟨ha, hb, hr⟩ <;> rw [hr] at h
  · cases h
  · simp only at h
    split at h
    · rename_i hf
      obtain ⟨h1, h2⟩ := (fitsCtab_append_fresh _ _ _ _).1 hf
      simp only [ibufBytes_length] at h2
      exact ⟨ha, hb, h1, h2, by simpa using h.symm⟩
    · cases h

theorem readCommand_ok {s t : State} (h : readCommand s = .ok t) :
    ∃ c, s.ctab[s.ctIndex.toNat]? = some c ∧ c.tag.length + c.data.length ≤ s.params.obufSize ∧
      t = readRecord c s := by
  unfold readCommand at h
  split at h
  · cases h
  · rename_i c hc
    split at h
    · cases h
    · exact ⟨c, hc, by unfold chunkBytes at *; omega, by simpa using h.symm⟩

theorem reframe_ok {k : Codec} {p : Params} {d z : Bytes} (h : reframe k p d = .ok z) :
    ∃ u, d ≠ [] ∧ k.inflate d = some u ∧ u.length ≤ p.scratchBytes ∧ z = zwrap k u := by
  unfold reframe at h
  split at h
  · cases h
  · rename_i hd
    split at h
    · cases h
    · rename_i u hu
      split at h
      · cases h
      · exact ⟨u, hd, hu, by omega, by simpa using h.symm⟩

theorem reframeCommand_ok {s t : State} (h : reframeCommand s = .ok t) :
    ∃ z, s.bOff.toNat + s.bLen.toNat ≤ s.params.ibufSize ∧
      reframe (codecOf s) s.params (ibufBytes s s.bOff.toNat s.bLen.toNat) = .ok z ∧
      z.length ≤ s.params.obufSize ∧ t = writeOutput z s := by
  unfold reframeCommand at h
  rcases regionB_cases s with hr | ⟨hb, hr⟩ <;> rw [hr] at h
  · cases h
  · simp only at h
    split at h
    · cases h
    · rename_i z hz
      split at h
      · cases h
      · exact ⟨z, hb, hz, by omega, by simpa using h.symm⟩

theorem decrush_ok {k : Codec} {p : Params} {cs out : List Chunk} (h : decrush k p cs = .ok out) :
    ∃ u, markers cs ≠ [] ∧ idatData cs ≠ [] ∧ k.inflate (idatData cs) = some u ∧ u.length ≤ p.scratchBytes ∧
      (zwrap k u).length ≤ p.scratchBytes ∧ ctabBytes out ≤ p.ctabBytes ∧ out = decrushed k cs u := by
  unfold decrush at h
  split at h
  · cases h
  · rename_i hm
    split at h
    · cases h
    · rename_i hd
      split at h
      · cases h
      · rename_i u hu
        split at h
        · cases h
        · split at h
          · cases h
          · split at h
            · cases h
            · have ho : out = decrushed k cs u := by simpa using h.symm
              exact ⟨u, hm, hd, hu, by omega, by omega, by rw [ho]; omega, ho⟩

theorem decrushCommand_ok {s t : State} (h : decrushCommand s = .ok t) :
    ∃ out, decrush (codecOf s) s.params s.ctab = .ok out ∧ t = { s with ctab := out } := by
  unfold decrushCommand at h
  split at h
  · cases h
  · rename_i out ho
    exact ⟨out, ho, by simpa using h.symm⟩

end Sys2Proof.Machine
end

