-- ==== Sys2Proof/Laws/PerInstr.lean ====
section
/-! SUPPORT. What holds of every command as syntax: its word has RSVD 0 and the opcode of the map (30_encoding.md R66, R67). -/

namespace Sys2Proof.Laws

/-- The command is well formed, its word has RSVD 0 and its opcode, and the map gives the command back. -/
def Encoding.Statement (i : Instr) : Prop :=
  i.wellFormed = true ∧ rsvdField (encode i) = 0 ∧ opcodeField (encode i) = opcodeOf i ∧
    instrOfOpcode (opcodeOf i) = some i

theorem Encoding.nop : Encoding.Statement .nop := by unfold Encoding.Statement; decide
theorem Encoding.crc32 : Encoding.Statement .crc32 := by unfold Encoding.Statement; decide
theorem Encoding.adler32 : Encoding.Statement .adler32 := by unfold Encoding.Statement; decide
theorem Encoding.parse : Encoding.Statement .parse := by unfold Encoding.Statement; decide
theorem Encoding.serialize : Encoding.Statement .serialize := by unfold Encoding.Statement; decide
theorem Encoding.ctClear : Encoding.Statement .ctClear := by unfold Encoding.Statement; decide
theorem Encoding.ctAppend : Encoding.Statement .ctAppend := by unfold Encoding.Statement; decide
theorem Encoding.ctRead : Encoding.Statement .ctRead := by unfold Encoding.Statement; decide
theorem Encoding.reframe : Encoding.Statement .reframe := by unfold Encoding.Statement; decide
theorem Encoding.decrush : Encoding.Statement .decrush := by unfold Encoding.Statement; decide

end Sys2Proof.Laws
end

