-- ==== Sys2Proof/Laws/Reframer.lean ====
section
/-! SUPPORT. The parts of decrush (42_reframer.md R100 to R106): the partition, the pieces of a buffer, the new records,
and the walk that reassembles the sequence. -/

namespace Sys2Proof.Machine

/-! ## The partition -/

@[simp] theorem idats_append (a b : List Chunk) : idats (a ++ b) = idats a ++ idats b := by simp [idats]
@[simp] theorem markers_append (a b : List Chunk) : markers (a ++ b) = markers a ++ markers b := by simp [markers]
@[simp] theorem others_append (a b : List Chunk) : others (a ++ b) = others a ++ others b := by simp [others]

@[simp] theorem idats_others (cs : List Chunk) : idats (others cs) = [] := by
  unfold idats others
  rw [List.filter_filter, List.filter_eq_nil_iff]
  intro c _
  cases kind c.tag <;> decide

@[simp] theorem markers_others (cs : List Chunk) : markers (others cs) = [] := by
  unfold markers others
  rw [List.filter_filter, List.filter_eq_nil_iff]
  intro c _
  cases kind c.tag <;> decide

@[simp] theorem others_others (cs : List Chunk) : others (others cs) = others cs := by simp [others]

/-- A sequence with an IDAT splits at its first one. -/
theorem idats_split {cs : List Chunk} (h : idats cs ≠ []) :
    ∃ p c q, cs = p ++ c :: q ∧ (∀ d ∈ p, kind d.tag ≠ .idat) ∧ kind c.tag = .idat := by
  induction cs with
  | nil => simp [idats] at h
  | cons d cs ih =>
    by_cases hd : kind d.tag = .idat
    · exact ⟨[], d, cs, rfl, by simp, hd⟩
    · obtain ⟨p, c, q, rfl, h1, h2⟩ := ih (by simpa [idats, hd] using h)
      exact ⟨d :: p, c, q, rfl, by simpa [hd] using h1, h2⟩

/-! ## Pieces and new records -/

theorem pieces_flatten (z : Bytes) (ns : List Nat) (h : ns.sum = z.length) :
    (pieces z ns).flatten = z ∧ (pieces z ns).map List.length = ns := by
  induction ns generalizing z with
  | nil =>
    obtain rfl : z = [] := List.length_eq_zero_iff.1 (by simpa using h.symm)
    simp [pieces]
  | cons n ns ih =>
    simp only [List.sum_cons] at h
    obtain ⟨a, b⟩ := ih (z.drop n) (by simp; omega)
    refine ⟨by simp [pieces, a], by simp [pieces, b]; omega⟩

theorem newIdats_kind {z : Bytes} {k : Nat} {c : Chunk} (h : c ∈ newIdats z k) : kind c.tag = .idat := by
  obtain ⟨d, _, rfl⟩ := List.mem_map.1 h
  exact kind_idat.2 rfl

@[simp] theorem idats_newIdats (z : Bytes) (k : Nat) : idats (newIdats z k) = newIdats z k := by
  unfold idats
  rw [List.filter_eq_self]
  intro c hc
  simp [newIdats_kind hc]

@[simp] theorem markers_newIdats (z : Bytes) (k : Nat) : markers (newIdats z k) = [] := by
  unfold markers
  rw [List.filter_eq_nil_iff]
  intro c hc
  simp [newIdats_kind hc]

@[simp] theorem others_newIdats (z : Bytes) (k : Nat) : others (newIdats z k) = [] := by
  unfold others
  rw [List.filter_eq_nil_iff]
  intro c hc
  simp [newIdats_kind hc]

/-! ## The walk -/

/-- After the insertion the walk only drops. -/
theorem reassembleFrom_true (new cs : List Chunk) : reassembleFrom new true cs = others cs := by
  induction cs with
  | nil => rfl
  | cons c cs ih => unfold reassembleFrom; cases h : kind c.tag <;> simp [h, ih, others]

end Sys2Proof.Machine
end

