-- ==== Sys2Proof/Laws/Steps.lean ====
section
/-! SUPPORT. What a step can do, said once: the frame and the errors of every command's rule, and the cases of an event
and of a step. -/

namespace Sys2Proof.Machine

/-! ## The rule of a command -/

/-- What a rule that succeeds leaves unchanged. -/
structure RuleFrame (i : Instr) (s u : State) : Prop where
  status : u.status = s.status
  aOff : u.aOff = s.aOff
  aLen : u.aLen = s.aLen
  bOff : u.bOff = s.bOff
  bLen : u.bLen = s.bLen
  ctIndex : u.ctIndex = s.ctIndex
  ibuf : u.ibuf = s.ibuf
  params : u.params = s.params
  resetCount : u.resetCount = s.resetCount
  pending : u.pending = s.pending
  replies : u.replies = s.replies
  result : i ≠ .crc32 → i ≠ .adler32 → u.result = s.result
  ctab : i ≠ .parse → i ≠ .ctClear → i ≠ .ctAppend → i ≠ .decrush → u.ctab = s.ctab
  outLen : i ≠ .serialize → i ≠ .ctRead → i ≠ .reframe → u.outLen = s.outLen
  obuf : i ≠ .serialize → i ≠ .ctRead → i ≠ .reframe → u.obuf = s.obuf
  ctTagLen : i ≠ .ctRead → u.ctTagLen = s.ctTagLen
  ctLen : i ≠ .ctRead → u.ctLen = s.ctLen
  ctDcrc : i ≠ .ctRead → u.ctDcrc = s.ctDcrc
  ctKind : i ≠ .ctRead → u.ctKind = s.ctKind

theorem commandOf_frame {i : Instr} {s u : State} (h : commandOf i s = .ok u) : RuleFrame i s u := by
  cases i <;> simp only [commandOf] at h
  case nop => cases h; constructor <;> simp
  case crc32 => rw [(checksumCommand_ok h).2.2]; constructor <;> simp
  case adler32 => rw [(checksumCommand_ok h).2.2]; constructor <;> simp
  case parse => obtain ⟨_, _, _, _, _, rfl⟩ := parseCommand_ok h; constructor <;> simp
  case serialize => obtain ⟨_, _, _, rfl⟩ := serializeCommand_ok h; constructor <;> simp
  case ctClear => cases h; constructor <;> simp
  case ctAppend => rw [(appendCommand_ok h).2.2.2.2]; constructor <;> simp
  case ctRead => obtain ⟨_, _, _, rfl⟩ := readCommand_ok h; constructor <;> simp [readRecord]
  case reframe => obtain ⟨_, _, _, _, rfl⟩ := reframeCommand_ok h; constructor <;> simp
  case decrush => obtain ⟨_, _, rfl⟩ := decrushCommand_ok h; constructor <;> simp

theorem parseRecords_error {n : Nat} {s : Bytes} {e : Err} (h : parseRecords n s = .error e) : e = .framing := by
  induction n generalizing s e with
  | zero => unfold parseRecords at h; split at h <;> simp at h; exact h.symm
  | succ n ih =>
    unfold parseRecords at h
    split at h
    · simp at h
    split at h
    · simpa using h.symm
    split at h
    · simpa using h.symm
    split at h
    · rename_i e' he'
      have hf := ih he'
      simp only [Except.error.injEq] at h
      rw [← h, hf]
    · simp at h

theorem parse_error {s : Bytes} {e : Err} (h : parse s = .error e) : e = .signature ∨ e = .framing := by
  unfold parse at h
  split at h
  · left; simpa using h.symm
  · right; exact parseRecords_error h

theorem serialize_error {cs : List Chunk} {e : Err} (h : serialize cs = .error e) : e = .tagLength := by
  unfold serialize at h; split at h <;> simp at h; exact h.symm

theorem parseCommand_error {s : State} {e : Err} (h : parseCommand s = .error e) :
    e = .range ∨ e = .signature ∨ e = .framing ∨ e = .capacity := by
  unfold parseCommand at h
  rcases regionB_cases s with hr | ⟨_, hr⟩ <;> rw [hr] at h <;> simp only at h
  · cases h; simp
  · split at h
    · rename_i e' he'; cases h; rcases parse_error he' with rfl | rfl <;> simp
    · split at h <;> cases h; simp

theorem serializeCommand_error {s : State} {e : Err} (h : serializeCommand s = .error e) :
    e = .tagLength ∨ e = .capacity := by
  unfold serializeCommand at h
  split at h
  · rename_i e' he'; cases h; exact .inl (serialize_error he')
  · split at h <;> cases h; simp

theorem appendCommand_error {s : State} {e : Err} (h : appendCommand s = .error e) :
    e = .range ∨ e = .capacity := by
  unfold appendCommand at h
  rcases regionsAB_cases s with hr | ⟨_, _, hr⟩ <;> rw [hr] at h <;> simp only at h
  · cases h; simp
  · split at h <;> cases h; simp

theorem readCommand_error {s : State} {e : Err} (h : readCommand s = .error e) : e = .range ∨ e = .capacity := by
  unfold readCommand at h
  split at h
  · cases h; simp
  · split at h <;> cases h; simp

theorem reframeCommand_error {s : State} {e : Err} (h : reframeCommand s = .error e) :
    e = .range ∨ e = .codec ∨ e = .capacity := by
  unfold reframeCommand at h
  rcases regionB_cases s with hr | ⟨_, hr⟩ <;> rw [hr] at h <;> simp only at h
  · cases h; simp
  · split at h
    · rename_i e' he'; cases h
      unfold reframe at he'
      split at he'
      · cases he'; simp
      split at he'
      · cases he'; simp
      split at he' <;> cases he'; simp
    · split at h <;> cases h; simp

theorem decrushCommand_error {s : State} {e : Err} (h : decrushCommand s = .error e) :
    e = .missingMarker ∨ e = .codec ∨ e = .capacity := by
  unfold decrushCommand at h
  split at h
  · rename_i e' he'; cases h
    unfold decrush at he'
    split at he'
    · cases he'; simp
    split at he'
    · cases he'; simp
    split at he'
    · cases he'; simp
    split at he'
    · cases he'; simp
    split at he'
    · cases he'; simp
    split at he' <;> cases he'; simp
  · cases h

/-- No rule raises the reserved error. -/
theorem commandOf_error_ne {i : Instr} {s : State} {e : Err} (h : commandOf i s = .error e) :
    e ≠ .unsupportedFormat := by
  cases i <;> simp only [commandOf] at h
  case nop => cases h
  case crc32 => rw [checksumCommand_error h]; decide
  case adler32 => rw [checksumCommand_error h]; decide
  case parse => rcases parseCommand_error h with rfl | rfl | rfl | rfl <;> decide
  case serialize => rcases serializeCommand_error h with rfl | rfl <;> decide
  case ctClear => cases h
  case ctAppend => rcases appendCommand_error h with rfl | rfl <;> decide
  case ctRead => rcases readCommand_error h with rfl | rfl <;> decide
  case reframe => rcases reframeCommand_error h with rfl | rfl | rfl <;> decide
  case decrush => rcases decrushCommand_error h with rfl | rfl | rfl <;> decide

/-! ## Register writes -/

theorem csrOfIndex_none {i : Byte} (h : 14 ≤ i.toNat) : csrOfIndex i = none := by
  unfold csrOfIndex; split <;> first | rfl | omega

theorem csrOfIndex_cmd {i : Byte} (h : csrOfIndex i = some .cmd) : i = 0 := by
  unfold csrOfIndex at h
  apply BitVec.eq_of_toNat_eq
  split at h <;> simp_all

/-- A write to another index than CMD stores a register or does nothing. -/
theorem csrWrite_store {i : Byte} {v : Word} {s t : State} (hi : csrOfIndex i ≠ some .cmd)
    (h : csrWrite i v s = .next t) : t = s ∨ ∃ r, t = csrStore r v s := by
  unfold csrWrite at h
  split at h
  · contradiction
  · right; exact ⟨_, by simpa using h.symm⟩
  · left; simpa using h.symm

/-! ## Events and steps -/

/-- Everything an event can do to the state. -/
theorem perform_cases {e : Event} {s t : State} (h : perform e s = .next t) :
    (∃ r, t = answer r s) ∨ t = s ∨ (e = .reset ∧ t = applyReset s) ∨
    (∃ a b, e = .bus (.ibufWrite a b) ∧ t = ibufWrite a b s) ∨ (∃ r v, t = csrStore r v s) ∨
    (∃ v i u, e = .bus (.csrWrite 0 v) ∧ decode v = .ok i ∧ commandOf i s = .ok u ∧ t = successCompletion u) ∨
    (∃ v er, e = .bus (.csrWrite 0 v) ∧ er ≠ .unsupportedFormat ∧ t = errorCompletion er s) := by
  cases e with
  | reset => exact .inr (.inr (.inl ⟨rfl, by simpa [perform] using h.symm⟩))
  | obufStrobe a b => exact .inr (.inl (by simpa [perform] using h.symm))
  | bus x =>
    cases x with
    | csrRead i => exact .inl ⟨_, by simpa [perform, performTxn] using h.symm⟩
    | ibufRead a => exact .inl ⟨_, by simpa [perform, performTxn] using h.symm⟩
    | obufRead a => exact .inl ⟨_, by simpa [perform, performTxn] using h.symm⟩
    | ibufWrite a b =>
      exact .inr (.inr (.inr (.inl ⟨a, b, rfl, by simpa [perform, performTxn] using h.symm⟩)))
    | csrWrite i v =>
      change csrWrite i v s = .next t at h
      by_cases hi : csrOfIndex i = some .cmd
      · have hi0 := csrOfIndex_cmd hi
        subst hi0
        rcases csrWrite_cmd_cases h with ⟨i, u, hd, hu, ht⟩ | ⟨i, er, _, he, ht⟩ | ⟨_, ht⟩
        · exact .inr (.inr (.inr (.inr (.inr (.inl ⟨v, i, u, rfl, hd, hu, ht⟩)))))
        · exact .inr (.inr (.inr (.inr (.inr (.inr ⟨v, er, rfl, commandOf_error_ne he, ht⟩)))))
        · exact .inr (.inr (.inr (.inr (.inr (.inr ⟨v, _, rfl, by decide, ht⟩)))))
      · rcases csrWrite_store hi h with ht | ⟨r, ht⟩
        · exact .inr (.inl ht)
        · exact .inr (.inr (.inr (.inr (.inl ⟨r, v, ht⟩))))

/-- A step waits, or performs the event it takes off. -/
theorem step_cases {s t : State} (h : step s = .next t) :
    t = s ∨ ∃ e rest, s.pending = e :: rest ∧ perform e { s with pending := rest } = .next t := by
  unfold step nextEvent at h
  cases hp : s.pending with
  | nil => rw [hp] at h; left; simpa [idle] using h.symm
  | cons e rest => rw [hp] at h; exact .inr ⟨e, rest, rfl, h⟩

/-- To prove that a step keeps a property that does not look at what is pending, prove it event by event. -/
theorem step_keeps {P : State → Prop} (hpend : ∀ s rest, P s → P { s with pending := rest })
    (hperf : ∀ e s t, P s → perform e s = .next t → P t) {s t : State} (hs : P s) (h : step s = .next t) : P t := by
  rcases step_cases h with rfl | ⟨e, rest, _, h⟩
  · exact hs
  · exact hperf e _ t (hpend s rest hs) h

/-- Placing an instruction word makes the next step write it to CMD. -/
theorem step_withFetchWord (s : State) (nbits w : Nat) :
    step (s.withFetchWord nbits w) = runCommand (BitVec.ofNat 32 w) s := rfl

end Sys2Proof.Machine
end

