-- ==== Sys2Proof/Tests/Slice0.lean ====
section
/-! SUPPORT. Tests on small states. Expected values come from the vectors of 95_test_vectors.md and from the rules; the
witnesses show that the hypotheses of the obligations can be met. -/

open Sys2Proof Sys2Proof.Machine Sys2Proof.Claims

namespace Sys2Proof.Tests

-- One theorem at a time: the check of many at once needs more memory than a module may take.
set_option Elab.async false

/-! ## Helpers -/

/-- The parameters of 95_test_vectors.md section 0, with the codec of its [instance] bytes. -/
def testParams : Params := { Config.exampleParams with codec := .vectors }

/-- The reset state with bytes at IBUF 0. -/
def withIbuf (bs : Bytes) : State := { State.resetWith testParams 0 with ibuf := Memory.putBytes [] 0 bs }

/-- With region A set. -/
def withA (off n : Word) (s : State) : State := { s with aOff := off, aLen := n }

/-- With region B set. -/
def withB (off n : Word) (s : State) : State := { s with bOff := off, bLen := n }

/-- With the chunk table set. -/
def withTable (cs : List Chunk) (s : State) : State := { s with ctab := cs }

/-- With other parameters. -/
def withParams (f : Params → Params) (s : State) : State := { s with params := f s.params }

/-- With a chunk stream at IBUF 0 as region B. -/
def withStream (bs : Bytes) : State := withB 0 (wordOfNat bs.length) (withIbuf bs)

/-- The reset state with a table. -/
def tableOnly (cs : List Chunk) : State := withTable cs (withIbuf [])

/-- The next state of a command (the same state where there is none). -/
def after (i : Instr) (s : State) : State :=
  match exec i s with
  | .next t => t
  | .fault _ => s
  | .refused _ => s

/-- The next state of a bus event (the same state where there is none). -/
def afterEvent (e : Event) (s : State) : State :=
  match perform e s with
  | .next t => t
  | .fault _ => s
  | .refused _ => s

def wikipedia : Bytes := [0x57, 0x69, 0x6B, 0x69, 0x70, 0x65, 0x64, 0x69, 0x61]
def tagIend : Bytes := [0x49, 0x45, 0x4E, 0x44]
def tagIhdr : Bytes := [0x49, 0x48, 0x44, 0x52]
def ihdrData : Bytes := [0x00, 0x00, 0x00, 0x01, 0x00, 0x00, 0x00, 0x01, 0x08, 0x06, 0x00, 0x00, 0x00]

/-- SIG then the record IEND with declared CRC 0 (41_chunk_codec.md R84). -/
def iendStream : Bytes :=
  [0x89, 0x50, 0x4E, 0x47, 0x0D, 0x0A, 0x1A, 0x0A, 0x00, 0x00, 0x00, 0x00, 0x49, 0x45, 0x4E, 0x44, 0x00, 0x00, 0x00, 0x00]

def iend : Chunk := ⟨tagIend, [], 0xAE426082⟩
def ihd : Chunk := ⟨[0x49, 0x48, 0x44], [0x78, 0x79, 0x7A], 0xF1AF4590⟩

/-- A record with a fresh CRC whose value no test looks at. -/
def idat (d : Bytes) : Chunk := freshChunk tagIdat d
def cgbi : Chunk := ⟨tagCgbi, [0x50, 0x00, 0x20, 0x02], 0x2BD5B37F⟩
def text : Chunk := freshChunk [0x74, 0x45, 0x58, 0x74] [0x6B, 0x00, 0x76]

/-! ## Well-formedness: one ill-formed term for each check -/

theorem test_wellFormed_example : testParams.wellFormed = true ∧ Instr.wellFormed .decrush = true := by decide

theorem test_wellFormed_refuses_sizes :
    ({ testParams with ibufSize := 0 } : Params).wellFormed = false ∧
    ({ testParams with ibufSize := 2 ^ 32 } : Params).wellFormed = false ∧
    ({ testParams with obufSize := 0 } : Params).wellFormed = false ∧
    ({ testParams with maxChunks := 0 } : Params).wellFormed = false ∧
    ({ testParams with ctabBytes := 2 ^ 32 } : Params).wellFormed = false ∧
    ({ testParams with scratchBytes := 0 } : Params).wellFormed = false ∧
    ({ testParams with scratchBytes := 2 ^ 32 - 1 } : Params).wellFormed = true := by decide

theorem test_wellFormed_refuses_lines :
    (HostLine.wr (.index 256) 0).wellFormed = false ∧ (HostLine.wr (.named .cmd) (2 ^ 32)).wellFormed = false ∧
    (HostLine.rd (.index 256)).wellFormed = false ∧ (HostLine.wib 0 256).wellFormed = false ∧
    (HostLine.wib (2 ^ 32) 0).wellFormed = false ∧ (HostLine.rib (2 ^ 32)).wellFormed = false ∧
    (HostLine.rob (2 ^ 32)).wellFormed = false ∧ (HostLine.wibs 0 [0, 256]).wellFormed = false ∧
    (HostLine.wibs (2 ^ 32 - 1) [0, 0]).wellFormed = false ∧ (HostLine.wibText 0 ['é']).wellFormed = false ∧
    (HostLine.wibText (2 ^ 32 - 1) ['a', 'b']).wellFormed = false ∧ (HostLine.robs (2 ^ 32 - 1) 2).wellFormed = false ∧
    (HostLine.robs (2 ^ 32) 0).wellFormed = false ∧
    (HostLine.regA (2 ^ 32) 0).wellFormed = false ∧ (HostLine.regA 0 (2 ^ 32)).wellFormed = false ∧
    (HostLine.regB (2 ^ 32) 0).wellFormed = false ∧ (HostLine.regB 0 (2 ^ 32)).wellFormed = false := by decide

theorem test_wellFormed_accepts_lines :
    (HostLine.wr (.index 255) (2 ^ 32 - 1)).wellFormed = true ∧ (HostLine.cmd .nop).wellFormed = true ∧
    (HostLine.wibText 0 ['I', 'E', 'N', 'D']).wellFormed = true ∧ HostLine.clrErr.wellFormed = true := by decide

/-! ## Decoding: words written out from the fields RSVD and OPCODE of R66 and the opcode map of R67 -/

theorem test_decode_nop : decode 0b00000000000000000000000000000000 = .ok .nop := by decide
theorem test_decode_crc32 : decode 0b00000000000000000000000000000001 = .ok .crc32 := by decide
theorem test_decode_adler32 : decode 0b00000000000000000000000000000010 = .ok .adler32 := by decide
theorem test_decode_parse : decode 0b00000000000000000000000000010000 = .ok .parse := by decide
theorem test_decode_serialize : decode 0b00000000000000000000000000010001 = .ok .serialize := by decide
theorem test_decode_ctClear : decode 0b00000000000000000000000000010010 = .ok .ctClear := by decide
theorem test_decode_ctAppend : decode 0b00000000000000000000000000010011 = .ok .ctAppend := by decide
theorem test_decode_ctRead : decode 0b00000000000000000000000000010100 = .ok .ctRead := by decide
theorem test_decode_reframe : decode 0b00000000000000000000000000100000 = .ok .reframe := by decide
theorem test_decode_decrush : decode 0b00000000000000000000000000100001 = .ok .decrush := by decide

/-- R69: reserved opcodes at the ends of their ranges, and words with a bit of RSVD set. -/
theorem test_decode_reserved :
    decode 0x00000003 = .error .reservedOpcode ∧ decode 0x0000000F = .error .reservedOpcode ∧
    decode 0x00000015 = .error .reservedOpcode ∧ decode 0x0000001F = .error .reservedOpcode ∧
    decode 0x00000022 = .error .reservedOpcode ∧ decode 0x000000FF = .error .reservedOpcode ∧
    decode 0x00000101 = .error .rsvdNotZero ∧ decode 0x80000012 = .error .rsvdNotZero ∧
    decodeTableWord 32 0x14 = some .ctRead ∧ decodeTableWord 32 0x114 = none := by decide

/-! ## The bus, reset and the step -/

/-- 10_state.md R22: bit 31 of a write clears ERR_SEEN; a write of the other bits does nothing. -/
theorem test_status_write :
    (afterEvent (.bus (.csrWrite 1 0x80000000)) { withIbuf [] with status := failed 0x02 }).status = ⟨0x02, true, false⟩ ∧
    (afterEvent (.bus (.csrWrite 1 0x7FFFFFFF)) { withIbuf [] with status := failed 0x02 }).status = failed 0x02 := by decide

/-- 20_memory.md R51, R52: a read at the size gives 0; a byte written is read back. -/
theorem test_buffer_reads :
    ibufRead (withIbuf wikipedia) 8 = 0x61 ∧ ibufRead (withIbuf wikipedia) 4096 = 0 ∧
    obufRead (withIbuf wikipedia) 4096 = 0 := by decide

/-- R126 to R128: reset empties the table and clears the registers. -/
theorem test_reset_event :
    (afterEvent .reset { tableOnly [iend] with result := 7, status := failed 0x10 }).ctab = [] ∧
    (afterEvent .reset { tableOnly [iend] with result := 7, status := failed 0x10 }).result = 0 ∧
    (afterEvent .reset { tableOnly [iend] with result := 7, status := failed 0x10 }).status = ⟨0, false, false⟩ := by decide

/-- The word at hand runs as the first command after reset: a reserved one is ILLEGAL_CMD (STATUS 0x80000101). -/
theorem test_step_runs_the_word :
    step (State.reset.withFetchWord 32 0x15) = .next { State.reset with status := failed 0x01 } ∧
    (failed 0x01).word = 0x80000101 := ⟨rfl, by decide⟩

/-! ## One to two tests for each command -/

/-- Section 2.3, first row: STATUS 0x80000110 becomes 0x80000000. -/
theorem test_nop : (after .nop { withIbuf [] with status := failed 0x10 }).status.word = 0x80000000 := by decide

/-- Section 2.1, continuity: A = "IE", B = "ND". -/
theorem test_crc32_continuity : (after .crc32 (withA 0 2 (withB 2 2 (withIbuf tagIend)))).result = 0xAE426082 := by
  decide +kernel

/-- Section 2.3: no wrap-around, and an empty region at the end of IBUF is valid. -/
theorem test_crc32_regions :
    (after .crc32 (withA 0xFFFFFFFF 2 (withIbuf []))).status.word = 0x80000102 ∧
    (after .crc32 (withA 4096 0 (withIbuf []))).status.word = 0x00000000 := by decide

/-- Section 2.3: "Wikipedia" split in two. -/
theorem test_adler32_continuity : (after .adler32 (withA 0 4 (withB 4 5 (withIbuf wikipedia)))).result = 0x11E60398 := by
  decide +kernel

/-- Section 2.3: both regions empty. -/
theorem test_adler32_empty : (after .adler32 (withIbuf [])).result = 0x00000001 := by decide

/-- Section 2.4: the declared CRC is kept and not checked. -/
theorem test_parse_keeps_declared_crc : (after .parse (withStream iendStream)).ctab = [⟨tagIend, [], 0x00000000⟩] := by
  decide +kernel

/-- Section 2.4: FRAMING for a declared length of 0xFFFFFFFF, SIGNATURE for the empty stream. -/
theorem test_parse_errors :
    (after .parse (withStream (sig ++ [0xFF, 0xFF, 0xFF, 0xFF, 0x49, 0x44, 0x41, 0x54, 0, 0, 0, 0, 0, 0, 0, 0]))).status.word
      = 0x80000111 ∧
    (after .parse (withStream [])).status.word = 0x80000110 := by decide +kernel

/-- Section 2.5: the declared CRC 0 comes out as AE 42 60 82. -/
theorem test_serialize_writes_fresh_crc :
    obufBytes (after .serialize (tableOnly [⟨tagIend, [], 0⟩])) 0 20 =
      sig ++ [0x00, 0x00, 0x00, 0x00, 0x49, 0x45, 0x4E, 0x44, 0xAE, 0x42, 0x60, 0x82] ∧
    (after .serialize (tableOnly [⟨tagIend, [], 0⟩])).outLen = 20 := by decide +kernel

/-- Section 2.5: a tag of three bytes anywhere in the table. -/
theorem test_serialize_tag_length :
    (after .serialize (tableOnly [iend, ihd])).status.word = 0x80000112 ∧
    (after .serialize (tableOnly [iend, ihd])).outLen = 0 := by decide

/-- Section 2.5: CT_CLEAR. -/
theorem test_ctClear : (after .ctClear (tableOnly [iend, ihd])).ctab = [] := by decide

/-- Section 2.5: "IHD" and "xyz". -/
theorem test_ctAppend :
    (after .ctAppend (withA 0 3 (withB 3 3 (withIbuf [0x49, 0x48, 0x44, 0x78, 0x79, 0x7A])))).ctab = [ihd] := by decide +kernel

/-- Section 2.5: CTAB_BYTES = 7 is one byte short of "IEND" and "abcd". -/
theorem test_ctAppend_capacity :
    (after .ctAppend (withParams (fun p => { p with ctabBytes := 7 })
      (withA 0 4 (withB 4 4 (withIbuf [0x49, 0x45, 0x4E, 0x44, 0x61, 0x62, 0x63, 0x64]))))).status.word = 0x80000103 := by
  decide +kernel

/-- Section 2.5: the marker record. -/
theorem test_ctRead :
    obufBytes (after .ctRead (tableOnly [cgbi])) 0 8 = [0x43, 0x67, 0x42, 0x49, 0x50, 0x00, 0x20, 0x02] ∧
    (after .ctRead (tableOnly [cgbi])).ctTagLen = 4 ∧ (after .ctRead (tableOnly [cgbi])).ctLen = 4 ∧
    (after .ctRead (tableOnly [cgbi])).ctDcrc = 0x2BD5B37F ∧ (after .ctRead (tableOnly [cgbi])).ctKind = 2 := by
  decide +kernel

/-- Section 2.5: an index at the table's end. -/
theorem test_ctRead_range : (after .ctRead { tableOnly [cgbi] with ctIndex := 1 }).status.word = 0x80000102 := by decide

/-- Section 2.7, program P5 [instance]. -/
theorem test_reframe :
    obufBytes (after .reframe (withStream Config.vectorPacked)) 0 13 =
      [0x78, 0x9C, 0x63, 0x10, 0x54, 0x32, 0x76, 0x01, 0x00, 0x01, 0x59, 0x00, 0xAB] ∧
    (after .reframe (withStream Config.vectorPacked)).outLen = 13 := by decide +kernel

/-- Section 2.7: B_LEN = 0, and SCRATCH_BYTES = 4. -/
theorem test_reframe_errors :
    (after .reframe (withStream [])).status.word = 0x80000121 ∧
    (after .reframe (withParams (fun p => { p with scratchBytes := 4 }) (withStream Config.vectorPacked))).status.word
      = 0x80000103 := by decide +kernel

/-- Section 2.7, D7 [instance]: both markers go, the new IDATs stand at the first IDAT's place. -/
theorem test_decrush :
    (after .decrush (tableOnly [idat [0x03], text, cgbi, idat [0x00], cgbi, iend])).ctab =
      [idat [0x78, 0x9C, 0x03, 0x00], idat [0x00, 0x00, 0x00, 0x01], text, iend] := by decide +kernel

/-- Section 2.7, D1 and D3. -/
theorem test_decrush_errors :
    (after .decrush (tableOnly [idat [0x03, 0x00], iend])).status.word = 0x80000120 ∧
    (after .decrush (tableOnly [cgbi, iend])).status.word = 0x80000121 := by decide +kernel

/-- Section 2.6. -/
theorem test_split :
    split 3 2 = [2, 1] ∧ split 0 3 = [0, 0, 0] ∧ split 10 4 = [3, 3, 2, 2] ∧ split 13 2 = [7, 6] ∧
    split 8 10 = [1, 1, 1, 1, 1, 1, 1, 1, 0, 0] := by decide

/-! ## Witnesses: states and operands that meet the hypotheses of the obligations, clause by clause -/

theorem witness_ReservedWordIsIllegalCmd :
    (0x00000100 : Word).extractLsb' 8 24 ≠ 0 ∧
    (0x03 ≤ ((0x03 : Word).extractLsb' 0 8).toNat ∧ ((0x03 : Word).extractLsb' 0 8).toNat ≤ 0x0F) ∧
    (0x03 ≤ ((0x0F : Word).extractLsb' 0 8).toNat ∧ ((0x0F : Word).extractLsb' 0 8).toNat ≤ 0x0F) ∧
    (0x15 ≤ ((0x15 : Word).extractLsb' 0 8).toNat ∧ ((0x15 : Word).extractLsb' 0 8).toNat ≤ 0x1F) ∧
    (0x15 ≤ ((0x1F : Word).extractLsb' 0 8).toNat ∧ ((0x1F : Word).extractLsb' 0 8).toNat ≤ 0x1F) ∧
    0x22 ≤ ((0x22 : Word).extractLsb' 0 8).toNat ∧ 0x22 ≤ ((0xFF : Word).extractLsb' 0 8).toNat := by decide

theorem witness_StepRunsTheDecodedCommand :
    (State.reset.withFetchWord 32 0x21).pending = .bus (.csrWrite 0 0x21) :: [] ∧ decode 0x21 = .ok .decrush ∧
    State.reset.pending = [] := by decide

theorem witness_CsrReadReturnsTheRegister : 14 ≤ (14 : Byte).toNat ∧ 14 ≤ (255 : Byte).toNat := by decide

theorem witness_StatusWordHoldsItsFields : (9 ≤ 9 ∧ 9 ≤ 30) ∧ 9 ≤ 30 ∧ 30 ≤ 30 := by decide

/-- A success and an error on a state that has ERR_SEEN set. -/
theorem witness_OnlyTheHostClearsErrSeen :
    ∃ s t u : State, s.status.errSeen = true ∧ csrWrite 0 0x12 s = .next t ∧ t.status.err = false ∧
      csrWrite 0 0x03 s = .next u :=
  ⟨{ withIbuf [] with status := failed 0x10 }, _, _, rfl, rfl, rfl, rfl⟩

theorem witness_CsrWriteEffects :
    decode 0x14 = .ok .ctRead ∧ decode 0x15 = .error .reservedOpcode ∧ decode 0x100 = .error .rsvdNotZero ∧
    14 ≤ (14 : Byte).toNat := by decide

theorem witness_IbufWriteSetsOneByte :
    (0 : Word).toNat < (withIbuf []).params.ibufSize ∧ (4095 : Word).toNat < (withIbuf []).params.ibufSize ∧
    (withIbuf []).params.ibufSize ≤ (4096 : Word).toNat ∧ 0 ≠ (4095 : Word).toNat := by decide

/-- Each of the three commands that write OBUF does so from some state, and IbufWrite writes IBUF. -/
theorem witness_OnlyTheirWritersChangeTheBuffers :
    (after .serialize (tableOnly [])).obuf ≠ (tableOnly []).obuf ∧
    (after .ctRead (tableOnly [cgbi])).obuf ≠ (tableOnly [cgbi]).obuf ∧
    (after .reframe (withStream [0x03, 0x00])).obuf ≠ (withStream [0x03, 0x00]).obuf ∧
    (∃ t, perform (commandEvent 0x11) (tableOnly []) = .next t ∧ t.obuf ≠ (tableOnly []).obuf) ∧
    ∃ t, perform (.bus (.ibufWrite 4095 7)) (withIbuf []) = .next t ∧ t.ibuf ≠ (withIbuf []).ibuf :=
  ⟨by decide +kernel, by decide +kernel, by decide +kernel, ⟨_, rfl, by decide +kernel⟩, ⟨_, rfl, by decide +kernel⟩⟩

/-- Reset, and each of the four commands that write CTAB, change it from some state. -/
theorem witness_OnlyTableCommandsChangeCtab :
    (∃ t, perform .reset (tableOnly [iend]) = .next t ∧ t.ctab ≠ (tableOnly [iend]).ctab) ∧
    (∃ t, perform (commandEvent 0x12) (tableOnly [iend]) = .next t ∧ t.ctab ≠ (tableOnly [iend]).ctab) ∧
    (after .parse (withStream iendStream)).ctab ≠ (withStream iendStream).ctab ∧
    (after .ctAppend (withIbuf [])).ctab ≠ (withIbuf []).ctab ∧
    (after .decrush (tableOnly [cgbi, idat [0x03, 0x00]])).ctab ≠ (tableOnly [cgbi, idat [0x03, 0x00]]).ctab :=
  ⟨⟨_, rfl, by decide⟩, ⟨_, rfl, by decide⟩, by decide +kernel, by decide +kernel, by decide +kernel⟩

/-- A state after an error, with a command pending. -/
def errorState : State := { tableOnly [iend] with status := failed 0x10, pending := [commandEvent 0x11] }

theorem witness_StepKeepsStatusLegal : StatusLegal errorState ∧ ∃ t, step errorState = .next t :=
  ⟨by decide, _, rfl⟩

theorem witness_StepKeepsCtabCapacity : CtabFits errorState ∧ ∃ t, step errorState = .next t :=
  ⟨by decide, _, rfl⟩

/-- Both bounds of CTAB met exactly. -/
theorem witness_StepKeepsCtabCapacity_boundary :
    CtabFits (withParams (fun p => { p with maxChunks := 1, ctabBytes := 4 }) errorState) := by decide

theorem witness_StepKeepsBuffersCanonical :
    BuffersOk { withIbuf wikipedia with pending := [.bus (.ibufWrite 4095 1)] } ∧
    ∃ t, step { withIbuf wikipedia with pending := [.bus (.ibufWrite 4095 1)] } = .next t := ⟨by decide, _, rfl⟩

theorem witness_StepKeepsOutputRegistersInRange :
    OutputOk { errorState with outLen := 4096, ctKind := 2 } ∧
    ∃ t, step { errorState with outLen := 4096, ctKind := 2 } = .next t := ⟨by decide, _, rfl⟩

theorem witness_NoStepChangesTheParameters : ∃ t, step errorState = .next t := ⟨_, rfl⟩

theorem witness_ErrorCompletionWritesOnlyStatus :
    (∃ t, csrWrite 0 0x100 errorState = .next t ∧ t.status.err = true) ∧
    ∃ t, csrWrite 0 0x21 errorState = .next t ∧ t.status.err = true :=
  ⟨⟨_, rfl, by decide⟩, ⟨_, rfl, by decide⟩⟩

theorem witness_NoCommandRaisesUnsupportedFormat :
    (∃ t, csrWrite 0 0x21 errorState = .next t) ∧ errorState.status.errCode ≠ 0x30 ∧ ∃ t, step errorState = .next t :=
  ⟨⟨_, rfl⟩, by decide, _, rfl⟩

theorem witness_CommandsRaiseOnlyTheirErrors : ∃ t, exec .decrush errorState = .next t := ⟨_, rfl⟩

/-- A command each of whose results differ from what stood there, so that its frame says something. -/
theorem witness_CommandFrames :
    (∃ t, exec .crc32 (withB 0 4 (withIbuf tagIend)) = .next t ∧ t.result ≠ 0) ∧
    ∃ t, exec .ctRead (tableOnly [cgbi]) = .next t ∧ t.ctDcrc ≠ 0 ∧ t.outLen ≠ 0 :=
  ⟨⟨_, rfl, by decide +kernel⟩, ⟨_, rfl, by decide +kernel⟩⟩

theorem witness_UnusedRegionRegistersDoNotMatter :
    (∀ i ∈ [Instr.nop, .serialize, .ctClear, .ctRead, .decrush],
      i = .nop ∨ i = .serialize ∨ i = .ctClear ∨ i = .ctRead ∨ i = .decrush) ∧
    ∀ i ∈ [Instr.parse, .reframe], i = .parse ∨ i = .reframe := by decide

/-- Both regions written, one of them up to the last byte of what was written, and one empty. -/
theorem witness_WrittenRegionsHideTheDraws :
    Written (withA 0 4 (withB 4 5 (withIbuf wikipedia))) 0 4 ∧ Written (withIbuf wikipedia) 4 5 ∧
    Written (withIbuf wikipedia) 4096 0 := by
  have hall : ∀ a, a < 9 → Memory.byteAt? (withIbuf wikipedia).ibuf a ≠ none := by decide
  refine ⟨fun a _ h => hall a ?_, fun a _ h => hall a ?_, fun a h1 h2 => ?_⟩
  · simp at h
    omega
  · simp at h
    omega
  · simp at h1 h2
    omega

theorem witness_RegionIsCheckedWithoutWrap :
    (4096 : Word).toNat + (1 : Word).toNat > (withIbuf []).params.ibufSize ∧
    (0xFFFFFFFF : Word).toNat + (2 : Word).toNat > (withIbuf []).params.ibufSize ∧
    (4095 : Word).toNat + (1 : Word).toNat ≤ (withIbuf []).params.ibufSize ∧ 0 < (1 : Word).toNat ∧
    (4096 : Word).toNat ≤ (withIbuf []).params.ibufSize ∧ (4097 : Word).toNat > (withIbuf []).params.ibufSize := by decide

theorem witness_OneByteChangeChangesTheCrc : (0x00 : Byte) ≠ 0x01 ∧ (0x7F : Byte) ≠ 0xFF := by decide

theorem witness_NopClearsTheErrorCode :
    ({ withIbuf [] with status := failed 0x10 } : State).status.word = 0x80000110 ∧
    (0x00000100 : Word).extractLsb' 0 8 = 0 ∧ (0x00000100 : Word) ≠ 0 := by decide

/-- Both regions inside, up to the last byte; one too long; both empty; the bytes of the two last clauses. -/
theorem witness_Crc32Result :
    AInIbuf (withA 4095 1 (withIbuf [])) ∧ BInIbuf (withA 4095 1 (withIbuf [])) ∧
    ¬ AInIbuf (withA 4096 1 (withIbuf [])) ∧ ¬ BInIbuf (withB 0 4097 (withIbuf [])) ∧
    (withIbuf []).aLen = 0 ∧ (withIbuf []).bLen = 0 ∧
    aBytes (withA 0 4 (withIbuf tagIend)) = [0x49, 0x45, 0x4E, 0x44] ∧ (withA 0 4 (withIbuf tagIend)).bLen = 0 := by decide

theorem witness_Adler32Result :
    AInIbuf (withB 4095 1 (withIbuf [])) ∧ BInIbuf (withB 4095 1 (withIbuf [])) ∧
    ¬ AInIbuf (withA 4096 1 (withIbuf [])) ∧ ¬ BInIbuf (withB 0 4097 (withIbuf [])) ∧
    (withB 0 9 (withIbuf wikipedia)).aLen = 0 ∧
    bBytes (withB 0 9 (withIbuf wikipedia)) = [0x57, 0x69, 0x6B, 0x69, 0x70, 0x65, 0x64, 0x69, 0x61] := by decide

theorem witness_KindIsExactMatch : (tagIdat ++ [0x00]).length ≠ 4 ∧ ([] : Bytes).length ≠ 4 := by decide

/-- A stream that parses, and one of each error. -/
theorem witness_ParseReadsExactlyTheRecords :
    parse iendStream = .ok [⟨tagIend, [], 0⟩] ∧ parse [0x89] = .error .signature ∧
    parse (iendStream ++ [0x00]) = .error .framing := by decide +kernel

/-- A tail of seven bytes, and one whose declared length is over-large. -/
theorem witness_TruncatedRecordIsFraming :
    (∀ c ∈ [iend], Representable c) ∧ ([0, 0, 0, 0, 0x49, 0x45, 0x4E] : Bytes).length < 8 ∧
    ([0xFF, 0xFF, 0xFF, 0xFF, 0x49, 0x44, 0x41, 0x54, 0, 0, 0, 0] : Bytes).length
      < 8 + (rdBe32 (([0xFF, 0xFF, 0xFF, 0xFF, 0x49, 0x44, 0x41, 0x54, 0, 0, 0, 0] : Bytes).take 4) + 4) := by decide +kernel

/-- With both capacities met exactly. -/
def parseState : State := withParams (fun p => { p with maxChunks := 1, ctabBytes := 4 }) (withStream iendStream)

theorem witness_ParseResult :
    BInIbuf parseState ∧ parse (bBytes parseState) = .ok [⟨tagIend, [], 0⟩] ∧
    [(⟨tagIend, [], 0⟩ : Chunk)].length ≤ parseState.params.maxChunks ∧
    ctabBytes [⟨tagIend, [], 0⟩] ≤ parseState.params.ctabBytes := by decide +kernel

theorem witness_SerializeChecksTagsAndHasLength :
    ((tableOnly [iend]).params.wellFormed = true ∧ CtabFits (tableOnly [iend]) ∧ iend ∈ (tableOnly [iend]).ctab) ∧
    (∀ c ∈ [iend, cgbi], c.tag.length = 4) ∧ ∃ c ∈ [iend, ihd], c.tag.length ≠ 4 := by decide

theorem witness_SerializeNeverReadsDcrc : ∀ c ∈ [iend, cgbi], c.tag.length = 4 := by decide

theorem witness_ParseSerializeRoundTrip :
    parse (sig ++ declaredRecord iend) = .ok [iend] ∧ (∀ c ∈ [iend], ValidCrc c) ∧
    parse iendStream = .ok [⟨tagIend, [], 0⟩] ∧ ¬ ValidCrc ⟨tagIend, [], 0⟩ ∧
    ∀ c ∈ [iend, cgbi], Representable c := by decide +kernel

/-- OBUF exactly as long as the stream. -/
def serializeState : State := withParams (fun p => { p with obufSize := 20 }) (tableOnly [iend])

theorem witness_SerializeResult :
    serialize serializeState.ctab = .ok (sig ++ declaredRecord iend) ∧
    (sig ++ declaredRecord iend).length ≤ serializeState.params.obufSize := by decide +kernel

/-- A table with one record, IBUF holding "IEND", and room for one record of four bytes more. -/
def appendState : State :=
  withParams (fun p => { p with maxChunks := 2, ctabBytes := 8 }) (withTable [iend] (withA 0 4 (withB 4096 0 (withIbuf tagIend))))

theorem witness_CtAppendResult :
    (AInIbuf appendState ∧ BInIbuf appendState ∧ appendState.ctab.length + 1 ≤ appendState.params.maxChunks ∧
      ctabBytes appendState.ctab + (aBytes appendState).length + (bBytes appendState).length
        ≤ appendState.params.ctabBytes) ∧
    ¬ AInIbuf (withA 4096 1 appendState) ∧ ¬ BInIbuf (withB 4096 1 appendState) ∧
    (withParams (fun p => { p with maxChunks := 1 }) appendState).ctab.length + 1
      > (withParams (fun p => { p with maxChunks := 1 }) appendState).params.maxChunks ∧
    ctabBytes appendState.ctab + (aBytes appendState).length + (bBytes appendState).length
      > (withParams (fun p => { p with ctabBytes := 7 }) appendState).params.ctabBytes := by decide

/-- OBUF exactly as long as the record. -/
def readState : State := withParams (fun p => { p with obufSize := 8 }) (tableOnly [cgbi])

theorem witness_CtReadResult :
    readState.ctab[readState.ctIndex.toNat]? = some cgbi ∧
    cgbi.tag.length + cgbi.data.length ≤ readState.params.obufSize := by decide

theorem witness_ChunkCodecCommandErrors_parse :
    ¬ BInIbuf (withB 0 4097 (withIbuf [])) ∧
    (BInIbuf (withStream [0x89]) ∧ parse (bBytes (withStream [0x89])) = .error .signature) ∧
    (BInIbuf (withStream (iendStream ++ [0x00])) ∧
      parse (bBytes (withStream (iendStream ++ [0x00]))) = .error .framing) ∧
    (BInIbuf (withStream (iendStream ++ iendStream.drop 8)) ∧
      parse (bBytes (withStream (iendStream ++ iendStream.drop 8))) = .ok [⟨tagIend, [], 0⟩, ⟨tagIend, [], 0⟩]) ∧
    2 > parseState.params.maxChunks ∧ ctabBytes [⟨tagIend, [], 0⟩, ⟨tagIend, [], 0⟩] > parseState.params.ctabBytes := by
  decide +kernel

theorem witness_ChunkCodecCommandErrors_table :
    (∃ c ∈ (tableOnly [iend, ihd]).ctab, c.tag.length ≠ 4) ∧
    (serialize serializeState.ctab = .ok (sig ++ declaredRecord iend) ∧
      (sig ++ declaredRecord iend).length
        > (withParams (fun p => { p with obufSize := 19 }) serializeState).params.obufSize) ∧
    ({ readState with ctIndex := 1 } : State).ctab.length ≤ ({ readState with ctIndex := 1 } : State).ctIndex.toNat ∧
    cgbi.tag.length + cgbi.data.length
      > (withParams (fun p => { p with obufSize := 7 }) readState).params.obufSize := by decide +kernel

theorem witness_SplitClosedForm : 1 ≤ 1 ∧ (split 8 10).length = 10 := by decide

theorem witness_NewIdatRecords : 1 ≤ 3 ∧ (newIdats [1, 2] 3).map Chunk.data = [[1], [2], []] := by decide +kernel

theorem witness_ReassembleInsertsAtTheFirstIdat :
    (∀ d ∈ [cgbi, text], kind d.tag ≠ .idat) ∧ kind (idat [0x03]).tag = .idat := by decide

/-- The table of D7 without its header record. -/
def crushed : List Chunk := [idat [0x03], text, cgbi, idat [0x00], cgbi, iend]

theorem witness_DecrushKeepsTheImageStream :
    ∃ out, decrush (Config.codec .vectors) testParams crushed = .ok out ∧ out.length = 4 :=
  ⟨_, rfl, by decide +kernel⟩

theorem witness_DecrushKeepsTheOtherRecords :
    ∃ out, decrush (Config.codec .vectors) testParams crushed = .ok out ∧ (markers crushed).length = 2 :=
  ⟨_, rfl, by decide +kernel⟩

/-- The inflated bytes and the zlib stream fit exactly. -/
def reframeState : State :=
  withParams (fun p => { p with scratchBytes := 5, obufSize := 13 }) (withStream Config.vectorPacked)

theorem witness_ReframeResult :
    BInIbuf reframeState ∧ bBytes reframeState ≠ [] ∧
    (Config.codec reframeState.params.codec).inflate (bBytes reframeState) = some Config.vectorPlain ∧
    Config.vectorPlain.length ≤ reframeState.params.scratchBytes ∧
    (zwrap (Config.codec reframeState.params.codec) Config.vectorPlain).length ≤ reframeState.params.obufSize := by
  decide +kernel

/-- The zlib stream fits the scratch storage exactly, and the result the table. -/
def decrushState : State := withParams (fun p => { p with scratchBytes := 8, ctabBytes := 27 }) (tableOnly crushed)

theorem witness_DecrushResult :
    markers decrushState.ctab ≠ [] ∧ idatData decrushState.ctab ≠ [] ∧
    (Config.codec decrushState.params.codec).inflate (idatData decrushState.ctab) = some [] ∧
    ([] : Bytes).length ≤ decrushState.params.scratchBytes ∧
    (zwrap (Config.codec decrushState.params.codec) []).length ≤ decrushState.params.scratchBytes ∧
    ctabBytes (reassemble decrushState.ctab
      (newIdats (zwrap (Config.codec decrushState.params.codec) []) (idats decrushState.ctab).length))
        ≤ decrushState.params.ctabBytes := by decide +kernel

theorem witness_ReframerCommandErrors_reframe :
    ¬ BInIbuf (withB 0 4097 (withIbuf [])) ∧ (BInIbuf (withStream []) ∧ bBytes (withStream []) = []) ∧
    (BInIbuf (withStream [0xFF, 0xFF]) ∧
      (Config.codec (withStream [0xFF, 0xFF]).params.codec).inflate (bBytes (withStream [0xFF, 0xFF])) = none) ∧
    Config.vectorPlain.length > (withParams (fun p => { p with scratchBytes := 4 }) reframeState).params.scratchBytes ∧
    (zwrap (Config.codec reframeState.params.codec) Config.vectorPlain).length
      > (withParams (fun p => { p with obufSize := 12 }) reframeState).params.obufSize := by decide +kernel

theorem witness_ReframerCommandErrors_decrush :
    markers (tableOnly [iend]).ctab = [] ∧
    (markers (tableOnly [cgbi, iend]).ctab ≠ [] ∧ idatData (tableOnly [cgbi, iend]).ctab = []) ∧
    (markers (tableOnly [cgbi, idat [0xFF, 0xFF]]).ctab ≠ [] ∧
      (Config.codec .vectors).inflate (idatData (tableOnly [cgbi, idat [0xFF, 0xFF]]).ctab) = none) := by decide +kernel

/-- Each of the three capacity checks of DECRUSH fails from some state. -/
theorem witness_ReframerCommandErrors_decrush_capacity :
    (Config.codec .vectors).inflate (idatData [cgbi, idat Config.vectorPacked]) = some Config.vectorPlain ∧
    Config.vectorPlain.length > (withParams (fun p => { p with scratchBytes := 4 }) decrushState).params.scratchBytes ∧
    (zwrap (Config.codec decrushState.params.codec) []).length
      > (withParams (fun p => { p with scratchBytes := 7 }) decrushState).params.scratchBytes ∧
    ctabBytes (reassemble decrushState.ctab
      (newIdats (zwrap (Config.codec decrushState.params.codec) []) (idats decrushState.ctab).length))
        > (withParams (fun p => { p with ctabBytes := 26 }) decrushState).params.ctabBytes := by decide +kernel

/-- Names and numbers at the ends of their ranges. -/
theorem witness_PlainLinesAreTransactions :
    (HostLine.wr (.named .ctKind) (2 ^ 32 - 1)).wellFormed = true ∧ (HostLine.wr (.index 255) 0).wellFormed = true ∧
    (HostLine.rd (.named .cmd)).wellFormed = true ∧ (HostLine.rd (.index 255)).wellFormed = true ∧
    (HostLine.wib (2 ^ 32 - 1) 255).wellFormed = true ∧ (HostLine.rib (2 ^ 32 - 1)).wellFormed = true ∧
    (HostLine.rob (2 ^ 32 - 1)).wellFormed = true := by decide

/-- Each pseudo-line up to the last address, and the two with a count at a count of 0. -/
theorem witness_PseudoLinesExpand :
    (HostLine.wibs (2 ^ 32 - 2) [0, 255]).wellFormed = true ∧ (HostLine.wibs (2 ^ 32 - 1) []).wellFormed = true ∧
    (HostLine.wibText (2 ^ 32 - 1) ['~']).wellFormed = true ∧ (HostLine.robs (2 ^ 32 - 2) 2).wellFormed = true ∧
    (HostLine.robs (2 ^ 32 - 1) 0).wellFormed = true ∧ (HostLine.regA (2 ^ 32 - 1) (2 ^ 32 - 1)).wellFormed = true ∧
    (HostLine.regB (2 ^ 32 - 1) (2 ^ 32 - 1)).wellFormed = true := by decide

/-! ## Invariants at the reset state of the interface -/

theorem test_reset_inv :
    StatusLegal State.reset ∧ CtabFits State.reset ∧ BuffersOk State.reset ∧ OutputOk State.reset ∧
    Config.exampleParams.wellFormed = true := by decide

end Sys2Proof.Tests
end

section
/-! SUPPORT. Proofs of the family 00_scope.md: what a step runs (O4), and that no step writes the parameters (O20). -/

namespace Sys2Proof.Machine

/-! ## What a step runs -/

/-- With nothing pending the engine waits. -/
theorem step_of_pending_nil {s : State} (h : s.pending = []) : step s = .next s := by
  rw [step, nextEvent, h]; rfl

theorem step_of_pending_cons {s : State} {e : Event} {rest : List Event} (h : s.pending = e :: rest) :
    step s = perform e { s with pending := rest } := by
  rw [step, nextEvent, h]

/-- A word that decodes runs its command. -/
theorem runCommand_of_decode {v : Word} {i : Instr} (h : decode v = .ok i) (s : State) :
    runCommand v s = exec i s := by
  rw [runCommand, h]

/-- The event that writes a word to CMD runs the word. -/
theorem perform_commandEvent (v : Word) (s : State) : perform (commandEvent v) s = runCommand v s := rfl

/-- Settles O4: the three cases of what is pending. -/
theorem stepRunsTheDecodedCommand : Obligations.StepRunsTheDecodedCommand := by
  refine ⟨fun s v rest i hp hd => ?_, fun s e rest hp => step_of_pending_cons hp, fun s hp => step_of_pending_nil hp⟩
  calc step s = perform (commandEvent v) { s with pending := rest } := step_of_pending_cons hp
    _ = runCommand v { s with pending := rest } := perform_commandEvent v _
    _ = exec i { s with pending := rest } := runCommand_of_decode hd _

/-! ## The parameters -/

/-- No event writes the parameters; a reset takes them over. -/
theorem perform_params {e : Event} {s t : State} (h : perform e s = .next t) : t.params = s.params := by
  rcases perform_cases h with ⟨r, rfl⟩ | rfl | ⟨-, rfl⟩ | ⟨a, b, -, rfl⟩ | ⟨r, v, rfl⟩ |
    ⟨v, i, u, -, -, hu, rfl⟩ | ⟨v, er, -, -, rfl⟩
  · exact answer_params r s
  · rfl
  · exact applyReset_params s
  · exact ibufWrite_params a b s
  · exact csrStore_params r v s
  · exact (successCompletion_params u).trans (commandOf_frame hu).params
  · exact errorCompletion_params er s

/-- Settles O20: taking an event off leaves the parameters, and so does every event. -/
theorem noStepChangesTheParameters : Obligations.NoStepChangesTheParameters := fun s _ hstep =>
  step_keeps (P := fun u => u.params = s.params) (fun _ _ hu => hu)
    (fun _ _ _ hu hperf => (perform_params hperf).trans hu) rfl hstep

end Sys2Proof.Machine
end

section
/-! SUPPORT. Proofs of the family 10_state.md: the fields of STATUS and the tags (O7, O37), reset (O14, O15), who changes
what (O8, O12, O13), the invariants every step keeps (O16 to O19), and that the reset draws stay out of commands whose
regions are written (O27). -/

namespace Sys2Proof.Machine

open Sys2Proof.Claims

/-! ## Reset -/

theorem resetWith_statusLegal (p : Params) (n : Nat) : StatusLegal (State.resetWith p n) := by
  rw [StatusLegal, resetWith_status]; decide

theorem resetWith_ctabFits (p : Params) (n : Nat) : CtabFits (State.resetWith p n) :=
  ⟨Nat.zero_le _, Nat.zero_le _⟩

theorem resetWith_buffersOk (p : Params) (n : Nat) : BuffersOk (State.resetWith p n) := by
  simp [BuffersOk, Memory.wf]

theorem resetWith_outputOk (p : Params) (n : Nat) : OutputOk (State.resetWith p n) := by
  simp [OutputOk]

/-! ## What every step keeps -/

/-- Each thing an event can do keeps `P`: the cases of `perform_cases`, and taking an event off. A reset establishes `P`
from any state. -/
structure KeptByEvents (P : State → Prop) : Prop where
  pending : ∀ s rest, P s → P { s with pending := rest }
  answer : ∀ r s, P s → P (answer r s)
  reset : ∀ s, P (applyReset s)
  ibufWrite : ∀ a b s, P s → P (ibufWrite a b s)
  csrStore : ∀ r v s, P s → P (csrStore r v s)
  success : ∀ i s u, P s → commandOf i s = .ok u → P (successCompletion u)
  error : ∀ e s, e ≠ .unsupportedFormat → P s → P (errorCompletion e s)

theorem KeptByEvents.step_keeps {P : State → Prop} (k : KeptByEvents P) {s t : State} (hs : P s)
    (h : step s = .next t) : P t := by
  refine Machine.step_keeps k.pending (fun e s t hs h => ?_) hs h
  rcases perform_cases h with ⟨r, rfl⟩ | rfl | ⟨-, rfl⟩ | ⟨a, b, -, rfl⟩ | ⟨r, v, rfl⟩ |
    ⟨v, i, u, -, -, hu, rfl⟩ | ⟨v, er, -, her, rfl⟩
  · exact k.answer r s hs
  · exact hs
  · exact k.reset s
  · exact k.ibufWrite a b s hs
  · exact k.csrStore r v s hs
  · exact k.success i s u hs hu
  · exact k.error er s her hs

/-! ## STATUS -/

@[simp] theorem csrStore_status_errCode (r : Csr) (v : Word) (s : State) :
    (csrStore r v s).status.errCode = s.status.errCode := by
  cases r
  case status => exact hostWrite_errCode v s.status
  all_goals rfl

@[simp] theorem csrStore_status_err (r : Csr) (v : Word) (s : State) :
    (csrStore r v s).status.err = s.status.err := by
  cases r
  case status => exact hostWrite_err v s.status
  all_goals rfl

theorem legalCode_code {e : Err} (h : e ≠ .unsupportedFormat) : legalCode e.code = true := by
  cases e
  case unsupportedFormat => exact absurd rfl h
  all_goals rfl

theorem statusLegal_successCompletion (s : State) : StatusLegal (successCompletion s) := by
  rw [StatusLegal, successCompletion_status, afterSuccess_errCode, afterSuccess_err]; decide

theorem statusLegal_errorCompletion {e : Err} (s : State) (h : e ≠ .unsupportedFormat) :
    StatusLegal (errorCompletion e s) := by
  exact ⟨legalCode_code h, iff_of_true rfl (code_ne_zero e)⟩

theorem keptByEvents_statusLegal : KeptByEvents StatusLegal where
  pending _ _ hs := hs
  answer _ _ hs := hs
  reset s := resetWith_statusLegal s.params (s.resetCount + 1)
  ibufWrite a b s hs := by simpa [StatusLegal] using hs
  csrStore r v s hs := by simpa [StatusLegal] using hs
  success _ _ u _ _ := statusLegal_successCompletion u
  error _ s he _ := statusLegal_errorCompletion s he

/-- Settles O16: each completion writes a legal STATUS, and a host write to STATUS leaves ERR and ERR_CODE. -/
theorem stepKeepsStatusLegal : Obligations.StepKeepsStatusLegal := fun _ _ hs h =>
  keptByEvents_statusLegal.step_keeps hs h

/-! ## The capacity of CTAB -/

theorem split_length (n k : Nat) : (split n k).length = k := by
  induction k generalizing n with
  | zero => rfl
  | succ k ih => rw [split, List.length_cons, ih]

theorem pieces_length (z : Bytes) (ns : List Nat) : (pieces z ns).length = ns.length := by
  induction ns generalizing z with
  | nil => rfl
  | cons n ns ih => rw [pieces, List.length_cons, List.length_cons, ih]

theorem newIdats_length (z : Bytes) (k : Nat) : (newIdats z k).length = k := by
  rw [newIdats, List.length_map, pieces_length, split_length]

/-- Each record is of one kind. -/
theorem length_partition (cs : List Chunk) :
    (others cs).length + (idats cs).length + (markers cs).length = cs.length := by
  induction cs with
  | nil => rfl
  | cons c cs ih =>
    simp only [others, idats, markers] at ih ⊢
    cases h : kind c.tag <;> simp [h] <;> omega

/-- The walk keeps the others and puts in the new records at most once. -/
theorem reassembleFrom_length_le (new : List Chunk) (inserted : Bool) (cs : List Chunk) :
    (reassembleFrom new inserted cs).length ≤ (others cs).length + new.length := by
  induction cs generalizing inserted with
  | nil => simp [reassembleFrom]
  | cons c cs ih =>
    unfold reassembleFrom
    cases h : kind c.tag with
    | cgbi => simpa [others, h] using ih inserted
    | other =>
      have := ih inserted
      simp only [others, h, List.filter_cons, List.length_cons, beq_self_eq_true, if_true] at this ⊢
      omega
    | idat =>
      cases inserted with
      | true => simpa [others, h] using ih true
      | false => simp [reassembleFrom_true, others, h]; omega

/-- DECRUSH never lengthens a table: its new IDAT records are as many as the old ones. -/
theorem decrush_length_le {k : Codec} {p : Params} {cs out : List Chunk} (h : decrush k p cs = .ok out) :
    out.length ≤ cs.length := by
  obtain ⟨u, -, -, -, -, -, -, rfl⟩ := decrush_ok h
  have hwalk := reassembleFrom_length_le (newIdats (zwrap k u) (idats cs).length) false cs
  have hparts := length_partition cs
  rw [newIdats_length] at hwalk
  rw [decrushed, reassemble]
  omega

theorem commandOf_ctabFits {i : Instr} {s u : State} (hs : CtabFits s) (h : commandOf i s = .ok u) : CtabFits u := by
  have hframe := commandOf_frame h
  cases i
  case parse => obtain ⟨cs, -, -, hlen, hbytes, rfl⟩ := parseCommand_ok h; exact ⟨hlen, hbytes⟩
  case ctClear => cases h; exact ⟨Nat.zero_le _, Nat.zero_le _⟩
  case ctAppend =>
    obtain ⟨-, -, hlen, hbytes, rfl⟩ := appendCommand_ok h
    exact ⟨by simpa using hlen, by simpa [freshChunk, Nat.add_assoc] using hbytes⟩
  case decrush =>
    obtain ⟨out, hout, rfl⟩ := decrushCommand_ok h
    obtain ⟨-, -, -, -, -, -, hbytes, -⟩ := decrush_ok hout
    exact ⟨(decrush_length_le hout).trans hs.1, hbytes⟩
  all_goals simpa [CtabFits, hframe.ctab, hframe.params] using hs

theorem keptByEvents_ctabFits : KeptByEvents CtabFits where
  pending _ _ hs := hs
  answer _ _ hs := hs
  reset s := resetWith_ctabFits s.params (s.resetCount + 1)
  ibufWrite a b s hs := by simpa [CtabFits] using hs
  csrStore r v s hs := by simpa [CtabFits] using hs
  success _ _ u hs hu := show CtabFits u from commandOf_ctabFits hs hu
  error _ _ _ hs := hs

/-- Settles O17: PARSE and CT_APPEND check both bounds; DECRUSH checks the bytes and never adds a record. -/
theorem stepKeepsCtabCapacity : Obligations.StepKeepsCtabCapacity := fun _ _ hs h =>
  keptByEvents_ctabFits.step_keeps hs h

/-! ## The buffers and the output registers -/

/-- A command that succeeds leaves OBUF and OUT_LEN, or puts out bytes that fit OBUF. -/
theorem commandOf_output {i : Instr} {s u : State} (h : commandOf i s = .ok u) :
    (u.obuf = s.obuf ∧ u.outLen = s.outLen) ∨
    ∃ o : Bytes, o.length ≤ s.params.obufSize ∧ u.obuf = Memory.putBytes s.obuf 0 o ∧
      u.outLen = wordOfNat o.length := by
  have hframe := commandOf_frame h
  cases i
  case serialize =>
    obtain ⟨o, -, hlen, rfl⟩ := serializeCommand_ok h
    exact .inr ⟨o, hlen, rfl, rfl⟩
  case ctRead =>
    obtain ⟨c, -, hlen, rfl⟩ := readCommand_ok h
    exact .inr ⟨c.tag ++ c.data, by simpa using hlen, rfl, rfl⟩
  case reframe =>
    obtain ⟨z, -, -, hlen, rfl⟩ := reframeCommand_ok h
    exact .inr ⟨z, hlen, rfl, rfl⟩
  all_goals exact .inl ⟨hframe.obuf (by decide) (by decide) (by decide),
    hframe.outLen (by decide) (by decide) (by decide)⟩

theorem commandOf_buffersOk {i : Instr} {s u : State} (hs : BuffersOk s) (h : commandOf i s = .ok u) :
    BuffersOk u := by
  have hframe := commandOf_frame h
  obtain ⟨hiwf, howf, hiin, hoin⟩ := hs
  rw [BuffersOk, hframe.ibuf, hframe.params]
  rcases commandOf_output h with ⟨hobuf, -⟩ | ⟨o, hlen, hobuf, -⟩ <;> rw [hobuf]
  · exact ⟨hiwf, howf, hiin, hoin⟩
  · exact ⟨hiwf, Memory.wf_putBytes howf 0 o, hiin, Memory.within_putBytes hoin (by omega)⟩

theorem ibufWrite_buffersOk (a : Word) (b : Byte) {s : State} (hs : BuffersOk s) : BuffersOk (ibufWrite a b s) := by
  obtain ⟨hiwf, howf, hiin, hoin⟩ := hs
  unfold ibufWrite
  split
  case isTrue ha => exact ⟨Memory.wf_put hiwf a.toNat b, howf, Memory.within_put hiin ha b, hoin⟩
  case isFalse => exact ⟨hiwf, howf, hiin, hoin⟩

theorem keptByEvents_buffersOk : KeptByEvents BuffersOk where
  pending _ _ hs := hs
  answer _ _ hs := hs
  reset s := resetWith_buffersOk s.params (s.resetCount + 1)
  ibufWrite a b _ hs := ibufWrite_buffersOk a b hs
  csrStore r v s hs := by simpa only [BuffersOk, csrStore_ibuf, csrStore_obuf, csrStore_params] using hs
  success _ _ u hs hu := show BuffersOk u from commandOf_buffersOk hs hu
  error _ _ _ hs := hs

/-- Settles O18: every write goes through `Memory.put` at an address that was checked against the size. -/
theorem stepKeepsBuffersCanonical : Obligations.StepKeepsBuffersCanonical := fun _ _ hs h =>
  keptByEvents_buffersOk.step_keeps hs h

theorem wordOfNat_toNat_le (n : Nat) : (wordOfNat n).toNat ≤ n := by
  rw [wordOfNat, BitVec.toNat_ofNat]; exact Nat.mod_le _ _

theorem kindCode_ne_three (k : ChunkKind) : kindCode k ≠ 3 := by cases k <;> decide

/-- KIND after a command is what it was, or the code of a kind. -/
theorem commandOf_ctKind {i : Instr} {s u : State} (h : commandOf i s = .ok u) :
    u.ctKind = s.ctKind ∨ ∃ k, u.ctKind = kindCode k := by
  by_cases hi : i = .ctRead
  · subst hi
    obtain ⟨c, -, -, rfl⟩ := readCommand_ok h
    exact .inr ⟨kind c.tag, rfl⟩
  · exact .inl ((commandOf_frame h).ctKind hi)

theorem commandOf_outputOk {i : Instr} {s u : State} (hs : OutputOk s) (h : commandOf i s = .ok u) : OutputOk u := by
  rw [OutputOk, (commandOf_frame h).params]
  constructor
  · rcases commandOf_output h with ⟨-, hlen⟩ | ⟨o, ho, -, hlen⟩ <;> rw [hlen]
    · exact hs.1
    · exact (wordOfNat_toNat_le o.length).trans ho
  · rcases commandOf_ctKind h with hkind | ⟨k, hkind⟩ <;> rw [hkind]
    · exact hs.2
    · exact kindCode_ne_three k

theorem keptByEvents_outputOk : KeptByEvents OutputOk where
  pending _ _ hs := hs
  answer _ _ hs := hs
  reset s := resetWith_outputOk s.params (s.resetCount + 1)
  ibufWrite a b s hs := by simpa [OutputOk] using hs
  csrStore r v s hs := by simpa [OutputOk] using hs
  success _ _ u hs hu := show OutputOk u from commandOf_outputOk hs hu
  error _ _ _ hs := hs

/-- Settles O19: OUT_LEN is the length of an output that was checked against OBUF_SIZE, KIND the code of a kind. -/
theorem stepKeepsOutputRegistersInRange : Obligations.StepKeepsOutputRegistersInRange := fun _ _ hs h =>
  keptByEvents_outputOk.step_keeps hs h

/-! ## Who changes what -/

theorem hostWrite_eq (v : Word) (st : Status) :
    st.hostWrite v = { st with errSeen := if v.getLsbD 31 then false else st.errSeen } := by
  unfold Status.hostWrite; split <;> rfl

/-- A write to STATUS goes to its W1C field and nowhere else. -/
theorem csrWrite_status (v : Word) (s : State) :
    csrWrite 1 v s = .next { s with status := s.status.hostWrite v } := rfl

/-- ERR_SEEN after a word written to CMD: kept by a success, set by an error. -/
theorem csrWrite_cmd_errSeen {v : Word} {s t : State} (h : csrWrite 0 v s = .next t) :
    (t.status.err = false ∧ t.status.errSeen = s.status.errSeen) ∨
    (t.status.err = true ∧ t.status.errSeen = true) := by
  rcases csrWrite_cmd_cases h with ⟨i, u, -, hu, rfl⟩ | ⟨i, e, -, -, rfl⟩ | ⟨-, rfl⟩
  · exact .inl ⟨rfl, by simp [(commandOf_frame hu).status]⟩
  · exact .inr ⟨rfl, rfl⟩
  · exact .inr ⟨rfl, rfl⟩

/-- Settles O8: bit 31 of a host write clears, a success keeps, an error sets. -/
theorem onlyTheHostClearsErrSeen : Obligations.OnlyTheHostClearsErrSeen := by
  refine ⟨fun v s => ?_, fun v s t h hseen => ?_, fun v s t h herr => ?_⟩
  · rw [csrWrite_status, hostWrite_eq]
  · rcases csrWrite_cmd_errSeen h with ⟨-, hkept⟩ | ⟨-, hset⟩
    · exact hkept.trans hseen
    · exact hset
  · rcases csrWrite_cmd_errSeen h with ⟨-, hkept⟩ | ⟨herr', -⟩
    · exact hkept
    · simp [herr] at herr'

/-- What can write CTAB, IBUF or OBUF: a reset, IbufWrite, a command that succeeds. -/
theorem perform_storage_cases {e : Event} {s t : State} (h : perform e s = .next t) :
    e = .reset ∨ (∃ a b, e = .bus (.ibufWrite a b) ∧ t = ibufWrite a b s) ∨
    (∃ v i u, e = .bus (.csrWrite 0 v) ∧ decode v = .ok i ∧ commandOf i s = .ok u ∧ t = successCompletion u) ∨
    (t.ctab = s.ctab ∧ t.ibuf = s.ibuf ∧ t.obuf = s.obuf) := by
  rcases perform_cases h with ⟨r, rfl⟩ | rfl | ⟨hreset, -⟩ | hwrite | ⟨r, v, rfl⟩ | hok | ⟨v, er, -, -, rfl⟩
  · exact .inr (.inr (.inr ⟨rfl, rfl, rfl⟩))
  · exact .inr (.inr (.inr ⟨rfl, rfl, rfl⟩))
  · exact .inl hreset
  · exact .inr (.inl hwrite)
  · exact .inr (.inr (.inr ⟨csrStore_ctab r v s, csrStore_ibuf r v s, csrStore_obuf r v s⟩))
  · exact .inr (.inr (.inl hok))
  · exact .inr (.inr (.inr ⟨rfl, rfl, rfl⟩))

/-- An event but reset that changes OBUF is an output command that succeeds. -/
theorem perform_obuf_ne {e : Event} {s t : State} (h : perform e s = .next t) (he : e ≠ .reset)
    (hne : t.obuf ≠ s.obuf) :
    ∃ v i, e = .bus (.csrWrite 0 v) ∧ decode v = .ok i ∧ (i = .serialize ∨ i = .ctRead ∨ i = .reframe) ∧
      t.status.err = false := by
  rcases perform_storage_cases h with hreset | ⟨a, b, -, rfl⟩ | ⟨v, i, u, hev, hd, hu, rfl⟩ | ⟨-, -, hobuf⟩
  · exact absurd hreset he
  · exact absurd (ibufWrite_obuf a b s) hne
  · refine ⟨v, i, hev, hd, ?_, rfl⟩
    by_contra hi
    obtain ⟨hser, hread, href⟩ := by simpa only [not_or] using hi
    exact hne ((commandOf_frame hu).obuf hser hread href)
  · exact absurd hobuf hne

/-- An event but reset that changes IBUF is IbufWrite. -/
theorem perform_ibuf_ne {e : Event} {s t : State} (h : perform e s = .next t) (he : e ≠ .reset)
    (hne : t.ibuf ≠ s.ibuf) : ∃ a b, e = .bus (.ibufWrite a b) := by
  rcases perform_storage_cases h with hreset | ⟨a, b, hev, -⟩ | ⟨v, i, u, -, -, hu, rfl⟩ | ⟨-, hibuf, -⟩
  · exact absurd hreset he
  · exact ⟨a, b, hev⟩
  · exact absurd (commandOf_frame hu).ibuf hne
  · exact absurd hibuf hne

/-- Settles O12: the frames of the events, buffer by buffer. -/
theorem onlyTheirWritersChangeTheBuffers : Obligations.OnlyTheirWritersChangeTheBuffers :=
  ⟨fun _ _ _ h he => ⟨perform_obuf_ne h he, perform_ibuf_ne h he⟩, fun _ _ _ => rfl⟩

/-- Settles O13: of all events only a reset and the four table commands, on success, do not frame CTAB. -/
theorem onlyTableCommandsChangeCtab : Obligations.OnlyTableCommandsChangeCtab := by
  intro e s t h hne
  rcases perform_storage_cases h with hreset | ⟨a, b, -, rfl⟩ | ⟨v, i, u, hev, hd, hu, rfl⟩ | ⟨hctab, -, -⟩
  · exact .inl hreset
  · exact absurd (ibufWrite_ctab a b s) hne
  · refine .inr ⟨v, i, hev, hd, ?_, rfl⟩
    by_contra hi
    obtain ⟨hparse, hclear, happend, hdecrush⟩ := by simpa only [not_or] using hi
    exact hne ((commandOf_frame hu).ctab hparse hclear happend hdecrush)
  · exact absurd hctab hne

/-! ## The reset draws -/

@[simp] theorem setDraws_ctIndex (n : Nat) (s : State) : (setDraws n s).ctIndex = s.ctIndex := rfl
@[simp] theorem setDraws_ctab (n : Nat) (s : State) : (setDraws n s).ctab = s.ctab := rfl
@[simp] theorem setDraws_params (n : Nat) (s : State) : (setDraws n s).params = s.params := rfl
theorem setDraws_codecOf (n : Nat) (s : State) : codecOf (setDraws n s) = codecOf s := rfl

/-- A byte that was written reads the same under any draws. -/
theorem ibufByte_setDraws {s : State} {a : Nat} (n : Nat) (h : Memory.byteAt? s.ibuf a ≠ none) :
    ibufByte (setDraws n s) a = ibufByte s a := by
  obtain ⟨b, hb⟩ := Option.ne_none_iff_exists'.1 h
  simp [ibufByte, setDraws, hb]

theorem region_setDraws {s : State} {off len : Word} (n : Nat) (h : Written s off len) :
    region (setDraws n s) off len = region s off len := by
  have hbytes : ibufBytes (setDraws n s) off.toNat len.toNat = ibufBytes s off.toNat len.toNat :=
    ibufBytes_congr fun a hlo hhi => ibufByte_setDraws n (h a hlo hhi)
  rw [region, region, hbytes]
  rfl

theorem regionB_setDraws {s : State} (n : Nat) (hb : Written s s.bOff s.bLen) :
    regionB (setDraws n s) = regionB s := region_setDraws n hb

theorem regionsAB_setDraws {s : State} (n : Nat) (ha : Written s s.aOff s.aLen) (hb : Written s s.bOff s.bLen) :
    regionsAB (setDraws n s) = regionsAB s := by
  have hA : regionA (setDraws n s) = regionA s := region_setDraws n ha
  rw [regionsAB, regionsAB, hA, regionB_setDraws n hb]

theorem complete_setDraws (n : Nat) (s : State) (r : Except Err State) :
    complete (setDraws n s) (r.map (setDraws n)) = mapNext (setDraws n) (complete s r) := by
  cases r <;> rfl

/-! A rule under other draws: it takes the same branches on the same regions, table and parameters. -/

theorem checksumCommand_setDraws (f : Bytes → Word) {s : State} (n : Nat) (ha : Written s s.aOff s.aLen)
    (hb : Written s s.bOff s.bLen) :
    checksumCommand f (setDraws n s) = (checksumCommand f s).map (setDraws n) := by
  rw [checksumCommand, checksumCommand, regionsAB_setDraws n ha hb]
  cases regionsAB s <;> rfl

theorem parseCommand_setDraws {s : State} (n : Nat) (hb : Written s s.bOff s.bLen) :
    parseCommand (setDraws n s) = (parseCommand s).map (setDraws n) := by
  rw [parseCommand, parseCommand, regionB_setDraws n hb]
  cases regionB s with
  | error e => rfl
  | ok stream =>
    simp only
    cases parse stream with
    | error e => rfl
    | ok cs => simp only [apply_ite (Except.map _)]; rfl

theorem serializeCommand_setDraws (n : Nat) (s : State) :
    serializeCommand (setDraws n s) = (serializeCommand s).map (setDraws n) := by
  rw [serializeCommand, serializeCommand, setDraws_ctab]
  cases serialize s.ctab with
  | error e => rfl
  | ok o => simp only [apply_ite (Except.map _)]; rfl

theorem appendCommand_setDraws {s : State} (n : Nat) (ha : Written s s.aOff s.aLen)
    (hb : Written s s.bOff s.bLen) :
    appendCommand (setDraws n s) = (appendCommand s).map (setDraws n) := by
  rw [appendCommand, appendCommand, regionsAB_setDraws n ha hb]
  cases regionsAB s with
  | error e => rfl
  | ok td => simp only [apply_ite (Except.map _)]; rfl

theorem readCommand_setDraws (n : Nat) (s : State) :
    readCommand (setDraws n s) = (readCommand s).map (setDraws n) := by
  rw [readCommand, readCommand, setDraws_ctab, setDraws_ctIndex]
  cases s.ctab[s.ctIndex.toNat]? with
  | none => rfl
  | some c => simp only [apply_ite (Except.map _)]; rfl

theorem reframeCommand_setDraws {s : State} (n : Nat) (hb : Written s s.bOff s.bLen) :
    reframeCommand (setDraws n s) = (reframeCommand s).map (setDraws n) := by
  rw [reframeCommand, reframeCommand, regionB_setDraws n hb, setDraws_codecOf, setDraws_params]
  cases regionB s with
  | error e => rfl
  | ok d =>
    simp only
    cases reframe (codecOf s) s.params d with
    | error e => rfl
    | ok z => simp only [apply_ite (Except.map _)]; rfl

theorem decrushCommand_setDraws (n : Nat) (s : State) :
    decrushCommand (setDraws n s) = (decrushCommand s).map (setDraws n) := by
  rw [decrushCommand, decrushCommand, setDraws_codecOf, setDraws_params, setDraws_ctab]
  cases decrush (codecOf s) s.params s.ctab <;> rfl

/-- Where both regions are written, a rule sees no draw. -/
theorem commandOf_setDraws (i : Instr) {s : State} (n : Nat) (ha : Written s s.aOff s.aLen)
    (hb : Written s s.bOff s.bLen) : commandOf i (setDraws n s) = (commandOf i s).map (setDraws n) := by
  cases i
  case nop => rfl
  case crc32 => exact checksumCommand_setDraws _ n ha hb
  case adler32 => exact checksumCommand_setDraws _ n ha hb
  case parse => exact parseCommand_setDraws n hb
  case serialize => exact serializeCommand_setDraws n s
  case ctClear => rfl
  case ctAppend => exact appendCommand_setDraws n ha hb
  case ctRead => exact readCommand_setDraws n s
  case reframe => exact reframeCommand_setDraws n hb
  case decrush => exact decrushCommand_setDraws n s

/-- Settles O27: the regions are the only way a draw could reach a command. -/
theorem writtenRegionsHideTheDraws : Obligations.WrittenRegionsHideTheDraws := by
  intro i s n ha hb
  rw [exec_eq, exec_eq, commandOf_setDraws i n ha hb, complete_setDraws]

/-! ## The fields of STATUS, and reset -/

/-- Settles O7: STATUS is the concatenation of its fields, taken apart from the low end. -/
theorem statusWordHoldsItsFields : Obligations.StatusWordHoldsItsFields := by
  intro st
  refine ⟨?_, ?_, ?_, fun k hlo hhi => ?_⟩
  · exact BitVec.extractLsb'_append_eq_right
  · simp only [Status.word, BitVec.getLsbD_append]; simp
  · simp only [Status.word, BitVec.getLsbD_append]; simp
  · have hcode : ¬ k < 8 := by omega
    have herr : ¬ k - 8 < 1 := by omega
    have hzero : k - 8 - 1 < 22 := by omega
    simp only [Status.word, BitVec.getLsbD_append, hcode, herr, hzero]; simp

theorem csrRead_resetWith (p : Params) (n : Nat) (i : Byte) : csrRead (State.resetWith p n) i = 0 := by
  unfold csrRead
  cases csrOfIndex i with
  | none => rfl
  | some r =>
    cases r
    case status => exact show Status.word ⟨0x00, false, false⟩ = 0 by decide
    all_goals rfl

/-- Settles O14: a reset event ends in the reset table, but for the host's own lists. -/
theorem resetSetsTheResetTable : Obligations.ResetSetsTheResetTable :=
  ⟨fun p n => ⟨csrRead_resetWith p n, rfl, fun _ => rfl, fun _ => rfl⟩,
    fun s => ⟨applyReset s, rfl, csrRead_resetWith s.params (s.resetCount + 1), rfl, fun _ => rfl, fun _ => rfl⟩⟩

/-- Settles O15: the four invariants of the reset table. -/
theorem resetMeetsTheInvariants : Obligations.ResetMeetsTheInvariants := fun p n =>
  ⟨resetWith_statusLegal p n, resetWith_ctabFits p n, resetWith_buffersOk p n, resetWith_outputOk p n⟩

/-! ## Tags -/

theorem kind_other {tag : Bytes} : kind tag = .other ↔ tag ≠ tagIdat ∧ tag ≠ tagCgbi := by
  rw [Ne, Ne, ← kind_idat, ← kind_cgbi]
  cases kind tag <;> decide

/-- Settles O37: the two named tags have 4 bytes, and every other tag is Other. -/
theorem kindIsExactMatch : Obligations.KindIsExactMatch := by
  intro tag
  refine ⟨kind_idat, kind_cgbi, kind_other, fun hlen => kind_other.2 ⟨?_, ?_⟩, rfl⟩
  · rintro rfl; exact hlen rfl
  · rintro rfl; exact hlen rfl

end Sys2Proof.Machine
end

section
/-! SUPPORT. Proofs of the family 20_memory.md: every step and command ends (O5), what register and buffer reads return
(O6, O11), what register and buffer writes do (O9, O10), and that OBUF is no input of a command (O26). -/

namespace Sys2Proof.Machine

open Sys2Proof.Claims

/-! ## Every step ends -/

theorem exec_total (i : Instr) (s : State) : ∃ t, exec i s = .next t := by
  rw [exec_eq]; exact complete_total s (commandOf i s)

/-- A word the decoder rejects is the error ILLEGAL_CMD. -/
theorem runCommand_of_reject {v : Word} {r : DecodeReject} (h : decode v = .error r) (s : State) :
    runCommand v s = .next (errorCompletion .illegalCmd s) := by
  rw [runCommand, h]

theorem runCommand_total (v : Word) (s : State) : ∃ t, runCommand v s = .next t := by
  cases hd : decode v with
  | ok i => rw [runCommand_of_decode hd]; exact exec_total i s
  | error r => exact ⟨_, runCommand_of_reject hd s⟩

/-- A write to an unmapped index has no effect. -/
theorem csrWrite_unmapped {i : Byte} (h : csrOfIndex i = none) (v : Word) (s : State) : csrWrite i v s = .next s := by
  rw [csrWrite, h]

/-- A write to a mapped register other than CMD is its store. -/
theorem csrWrite_mapped {i : Byte} {r : Csr} (h : csrOfIndex i = some r) (hr : r ≠ .cmd) (v : Word) (s : State) :
    csrWrite i v s = .next (csrStore r v s) := by
  rw [csrWrite, h]
  cases r
  case cmd => exact absurd rfl hr
  all_goals rfl

theorem csrWrite_total (i : Byte) (v : Word) (s : State) : ∃ t, csrWrite i v s = .next t := by
  cases hi : csrOfIndex i with
  | none => exact ⟨s, csrWrite_unmapped hi v s⟩
  | some r =>
    by_cases hr : r = .cmd
    · obtain rfl : i = 0 := csrOfIndex_cmd (hr ▸ hi)
      exact runCommand_total v s
    · exact ⟨_, csrWrite_mapped hi hr v s⟩

theorem performTxn_total (x : Txn) (s : State) : ∃ t, performTxn x s = .next t := by
  cases x with
  | csrWrite i v => exact csrWrite_total i v s
  | csrRead i => exact ⟨_, rfl⟩
  | ibufWrite a b => exact ⟨_, rfl⟩
  | ibufRead a => exact ⟨_, rfl⟩
  | obufRead a => exact ⟨_, rfl⟩

theorem perform_total (e : Event) (s : State) : ∃ t, perform e s = .next t := by
  cases e with
  | bus x => exact performTxn_total x s
  | obufStrobe a b => exact ⟨s, rfl⟩
  | reset => exact ⟨_, rfl⟩

theorem step_total (s : State) : ∃ t, step s = .next t := by
  cases hp : s.pending with
  | nil => exact ⟨s, step_of_pending_nil hp⟩
  | cons e rest => rw [step_of_pending_cons hp]; exact perform_total e _

/-- Settles O5: a command ends in one of the two completions, and every other event in a state by its definition. -/
theorem everyStepAndCommandEnds : Obligations.EveryStepAndCommandEnds :=
  ⟨step_total, exec_total⟩

/-! ## Register reads and writes -/

theorem csrRead_unmapped {i : Byte} (h : csrOfIndex i = none) (s : State) : csrRead s i = 0 := by
  rw [csrRead, h]

theorem csrRead_mapped {i : Byte} {r : Csr} (h : csrOfIndex i = some r) (s : State) : csrRead s i = csrValue s r := by
  rw [csrRead, h]

/-- CT_KIND holds KIND in its two low bits and 0 above them. -/
theorem csrRead_ctKind (s : State) : csrRead s 13 = (0 : BitVec 30) ++ s.ctKind := by
  rw [csrRead_mapped (r := .ctKind) rfl, csrValue]
  exact BitVec.setWidth_eq_append (by decide)

/-- Settles O6: index by index through the register map. -/
theorem csrReadReturnsTheRegister : Obligations.CsrReadReturnsTheRegister := fun s =>
  ⟨fun _ => rfl, csrRead_mapped (r := .cmd) rfl s, csrRead_mapped (r := .status) rfl s,
    csrRead_mapped (r := .aOff) rfl s, csrRead_mapped (r := .aLen) rfl s, csrRead_mapped (r := .bOff) rfl s,
    csrRead_mapped (r := .bLen) rfl s, csrRead_mapped (r := .result) rfl s, csrRead_mapped (r := .outLen) rfl s,
    csrRead_mapped (r := .ctCount) rfl s, csrRead_mapped (r := .ctIndex) rfl s, csrRead_mapped (r := .ctTagLen) rfl s,
    csrRead_mapped (r := .ctLen) rfl s, csrRead_mapped (r := .ctDcrc) rfl s, csrRead_ctKind s,
    fun _ h => csrRead_unmapped (csrOfIndex_none h) s⟩

/-- A write to CMD runs the word. -/
theorem csrWrite_cmd (v : Word) (s : State) : csrWrite 0 v s = runCommand v s := rfl

/-- Settles O9: CMD by the decoder, STATUS by its W1C field, the other mapped indices by their store. -/
theorem csrWriteEffects : Obligations.CsrWriteEffects := by
  refine fun v s => ⟨fun i hd => ?cmd, fun r hd => ?reserved, ?status,
    csrWrite_mapped (r := .aOff) rfl (by decide) v s, csrWrite_mapped (r := .aLen) rfl (by decide) v s,
    csrWrite_mapped (r := .bOff) rfl (by decide) v s, csrWrite_mapped (r := .bLen) rfl (by decide) v s,
    csrWrite_mapped (r := .ctIndex) rfl (by decide) v s, csrWrite_mapped (r := .result) rfl (by decide) v s,
    csrWrite_mapped (r := .outLen) rfl (by decide) v s, csrWrite_mapped (r := .ctCount) rfl (by decide) v s,
    csrWrite_mapped (r := .ctTagLen) rfl (by decide) v s, csrWrite_mapped (r := .ctLen) rfl (by decide) v s,
    csrWrite_mapped (r := .ctDcrc) rfl (by decide) v s, csrWrite_mapped (r := .ctKind) rfl (by decide) v s,
    fun i hi => csrWrite_unmapped (csrOfIndex_none hi) v s⟩
  case cmd => rw [csrWrite_cmd, runCommand_of_decode hd]
  case reserved => rw [csrWrite_cmd, runCommand_of_reject hd]; rfl
  case status => rw [csrWrite_status, hostWrite_eq]

/-! ## Buffer reads and writes -/

theorem ibufWrite_inside {a : Word} {s : State} (h : a.toNat < s.params.ibufSize) (b : Byte) :
    ibufWrite a b s = { s with ibuf := Memory.put s.ibuf a.toNat b } := by
  rw [ibufWrite, if_pos h]

theorem ibufWrite_outside {a : Word} {s : State} (h : s.params.ibufSize ≤ a.toNat) (b : Byte) :
    ibufWrite a b s = s := by
  rw [ibufWrite, if_neg (by omega)]

/-- What a write to IBUF leaves at every address. -/
theorem ibufByte_ibufWrite {a : Word} {s : State} (h : a.toNat < s.params.ibufSize) (b : Byte) (x : Nat) :
    ibufByte (ibufWrite a b s) x = if x = a.toNat then b else ibufByte s x := by
  rw [ibufWrite_inside h, ibufByte, Memory.byteAt?_put]
  split <;> rfl

/-- Settles O10: a write inside IBUF puts one byte into it, one outside leaves the state. -/
theorem ibufWriteSetsOneByte : Obligations.IbufWriteSetsOneByte := by
  refine fun a b s => ⟨fun h => ⟨ibufWrite a b s, rfl, ?_, fun x hx => ?_, ?_⟩, fun h => ?_⟩
  · rw [ibufByte_ibufWrite h, if_pos rfl]
  · rw [ibufByte_ibufWrite h, if_neg hx]
  · rw [ibufWrite_inside h]
  · rw [performTxn, ibufWrite_outside h]

/-- Settles O11: a buffer read answers `ibufRead` or `obufRead`, which are the bytes the statement writes out. -/
theorem bufferReadsReturnTheByte : Obligations.BufferReadsReturnTheByte := fun _ _ => ⟨rfl, rfl⟩

/-! ## OBUF is no input -/

/-- The bytes of OBUF replaced. -/
def setObuf (m : Memory) (s : State) : State := { s with obuf := m }

@[simp] theorem setObuf_ctIndex (m : Memory) (s : State) : (setObuf m s).ctIndex = s.ctIndex := rfl
@[simp] theorem setObuf_ctab (m : Memory) (s : State) : (setObuf m s).ctab = s.ctab := rfl
@[simp] theorem setObuf_params (m : Memory) (s : State) : (setObuf m s).params = s.params := rfl
theorem setObuf_codecOf (m : Memory) (s : State) : codecOf (setObuf m s) = codecOf s := rfl

theorem region_setObuf (m : Memory) (s : State) (off len : Word) : region (setObuf m s) off len = region s off len := by
  have hbytes : ibufBytes (setObuf m s) off.toNat len.toNat = ibufBytes s off.toNat len.toNat :=
    ibufBytes_congr fun _ _ _ => rfl
  rw [region, region, hbytes, setObuf_params]

theorem regionB_setObuf (m : Memory) (s : State) : regionB (setObuf m s) = regionB s :=
  region_setObuf m s s.bOff s.bLen

theorem regionsAB_setObuf (m : Memory) (s : State) : regionsAB (setObuf m s) = regionsAB s := by
  have hA : regionA (setObuf m s) = regionA s := region_setObuf m s s.aOff s.aLen
  rw [regionsAB, regionsAB, hA, regionB_setObuf]

/-- Any output over any OBUF: the other fields are those of the output over the old one. -/
theorem writeOutput_setObuf (o : Bytes) (m : Memory) (s : State) :
    writeOutput o (setObuf m s) = setObuf (Memory.putBytes m 0 o) (writeOutput o s) := rfl

theorem readRecord_setObuf (c : Chunk) (m : Memory) (s : State) :
    readRecord c (setObuf m s) = setObuf (Memory.putBytes m 0 (c.tag ++ c.data)) (readRecord c s) := rfl

/-! A rule over another OBUF: it takes the same branches. The rules without output carry the other OBUF along, and those
with output put theirs into it. -/

theorem checksumCommand_setObuf (f : Bytes → Word) (m : Memory) (s : State) :
    checksumCommand f (setObuf m s) = (checksumCommand f s).map (setObuf m) := by
  rw [checksumCommand, checksumCommand, regionsAB_setObuf]
  cases regionsAB s <;> rfl

theorem parseCommand_setObuf (m : Memory) (s : State) :
    parseCommand (setObuf m s) = (parseCommand s).map (setObuf m) := by
  rw [parseCommand, parseCommand, regionB_setObuf]
  cases regionB s with
  | error e => rfl
  | ok stream =>
    simp only
    cases parse stream with
    | error e => rfl
    | ok cs => simp only [apply_ite (Except.map _)]; rfl

theorem appendCommand_setObuf (m : Memory) (s : State) :
    appendCommand (setObuf m s) = (appendCommand s).map (setObuf m) := by
  rw [appendCommand, appendCommand, regionsAB_setObuf]
  cases regionsAB s with
  | error e => rfl
  | ok td => simp only [apply_ite (Except.map _)]; rfl

theorem decrushCommand_setObuf (m : Memory) (s : State) :
    decrushCommand (setObuf m s) = (decrushCommand s).map (setObuf m) := by
  rw [decrushCommand, decrushCommand, setObuf_codecOf, setObuf_params, setObuf_ctab]
  cases decrush (codecOf s) s.params s.ctab <;> rfl

theorem serializeCommand_setObuf (m : Memory) (s : State) :
    ∃ m', serializeCommand (setObuf m s) = (serializeCommand s).map (setObuf m') := by
  rw [serializeCommand, serializeCommand, setObuf_ctab]
  cases serialize s.ctab with
  | error e => exact ⟨m, rfl⟩
  | ok o =>
    refine ⟨Memory.putBytes m 0 o, ?_⟩
    simp only [apply_ite (Except.map _), writeOutput_setObuf]; rfl

theorem readCommand_setObuf (m : Memory) (s : State) :
    ∃ m', readCommand (setObuf m s) = (readCommand s).map (setObuf m') := by
  rw [readCommand, readCommand, setObuf_ctab, setObuf_ctIndex]
  cases s.ctab[s.ctIndex.toNat]? with
  | none => exact ⟨m, rfl⟩
  | some c =>
    refine ⟨Memory.putBytes m 0 (c.tag ++ c.data), ?_⟩
    simp only [apply_ite (Except.map _), readRecord_setObuf]; rfl

theorem reframeCommand_setObuf (m : Memory) (s : State) :
    ∃ m', reframeCommand (setObuf m s) = (reframeCommand s).map (setObuf m') := by
  rw [reframeCommand, reframeCommand, regionB_setObuf, setObuf_codecOf, setObuf_params]
  cases regionB s with
  | error e => exact ⟨m, rfl⟩
  | ok d =>
    simp only
    cases reframe (codecOf s) s.params d with
    | error e => exact ⟨m, rfl⟩
    | ok z =>
      refine ⟨Memory.putBytes m 0 z, ?_⟩
      simp only [apply_ite (Except.map _), writeOutput_setObuf]; rfl

/-- From another OBUF, a rule raises the same error, or gives the same state but for OBUF. -/
theorem commandOf_setObuf (i : Instr) (m : Memory) (s : State) :
    ∃ m', commandOf i (setObuf m s) = (commandOf i s).map (setObuf m') := by
  cases i
  case nop => exact ⟨m, rfl⟩
  case crc32 => exact ⟨m, checksumCommand_setObuf _ m s⟩
  case adler32 => exact ⟨m, checksumCommand_setObuf _ m s⟩
  case parse => exact ⟨m, parseCommand_setObuf m s⟩
  case serialize => exact serializeCommand_setObuf m s
  case ctClear => exact ⟨m, rfl⟩
  case ctAppend => exact ⟨m, appendCommand_setObuf m s⟩
  case ctRead => exact readCommand_setObuf m s
  case reframe => exact reframeCommand_setObuf m s
  case decrush => exact ⟨m, decrushCommand_setObuf m s⟩

/-- Settles O26: the rule does not look at OBUF, and a completion writes STATUS alone. -/
theorem obufIsNoInputOfACommand : Obligations.ObufIsNoInputOfACommand := by
  intro i s m
  obtain ⟨m', hrule⟩ := commandOf_setObuf i m s
  change ∃ t t', _ ∧ exec i (setObuf m s) = .next t' ∧ _
  rw [exec_eq, exec_eq, hrule]
  cases commandOf i s with
  | ok u => exact ⟨successCompletion u, successCompletion (setObuf m' u), rfl, rfl, rfl⟩
  | error e => exact ⟨errorCompletion e s, errorCompletion e (setObuf m s), rfl, rfl, rfl⟩

end Sys2Proof.Machine
end

section
/-! SUPPORT. Proofs of the family 30_encoding.md: decode and encode (O1, O2), reserved words (O3), what a command leaves
unchanged and which registers it does not use (O24, O25), regions (O28), and the lines of a host program (O58, O59). -/

namespace Sys2Proof.Machine

open Sys2Proof.Claims

/-! ## Decode and encode -/

/-- What Laws/PerInstr.lean states of each command, for all of them. -/
theorem encoding_statement (i : Instr) : Laws.Encoding.Statement i := by
  cases i
  case nop => exact Laws.Encoding.nop
  case crc32 => exact Laws.Encoding.crc32
  case adler32 => exact Laws.Encoding.adler32
  case parse => exact Laws.Encoding.parse
  case serialize => exact Laws.Encoding.serialize
  case ctClear => exact Laws.Encoding.ctClear
  case ctAppend => exact Laws.Encoding.ctAppend
  case ctRead => exact Laws.Encoding.ctRead
  case reframe => exact Laws.Encoding.reframe
  case decrush => exact Laws.Encoding.decrush

/-- The two directions of the opcode map are inverse. -/
theorem instrOfOpcode_eq_some_iff {op : Byte} {i : Instr} : instrOfOpcode op = some i ↔ op = opcodeOf i := by
  constructor
  · intro h
    unfold instrOfOpcode at h
    split at h <;> cases h
    all_goals exact BitVec.eq_of_toNat_eq ‹op.toNat = _›
  · rintro rfl
    obtain ⟨-, -, -, hmap⟩ := encoding_statement i
    exact hmap

/-- The two fields make up the word. -/
theorem rsvdField_append_opcodeField (v : Word) : rsvdField v ++ opcodeField v = v :=
  (BitVec.extractLsb'_append_extractLsb'_eq_extractLsb' rfl).trans BitVec.extractLsb'_eq_self

theorem eq_encode_iff {v : Word} {i : Instr} : v = encode i ↔ rsvdField v = 0 ∧ opcodeField v = opcodeOf i := by
  constructor
  · rintro rfl
    obtain ⟨-, hrsvd, hop, -⟩ := encoding_statement i
    exact ⟨hrsvd, hop⟩
  · rintro ⟨hrsvd, hop⟩
    rw [encode, ← hrsvd, ← hop, rsvdField_append_opcodeField]

theorem decode_eq_ok_iff {v : Word} {i : Instr} :
    decode v = .ok i ↔ rsvdField v = 0 ∧ instrOfOpcode (opcodeField v) = some i := by
  unfold decode
  split
  case isTrue hrsvd => exact iff_of_false (by rintro ⟨⟩) fun h => hrsvd h.1
  case isFalse hrsvd =>
    rw [not_not] at hrsvd
    cases instrOfOpcode (opcodeField v) <;> simp [hrsvd]

/-- Settles O1: both sides say that RSVD is 0 and OPCODE is the command's. -/
theorem decodeReadsExactlyTheEncodedWords : Obligations.DecodeReadsExactlyTheEncodedWords := by
  intro v i
  rw [decode_eq_ok_iff, instrOfOpcode_eq_some_iff, eq_encode_iff]

@[simp] theorem decode_encode (i : Instr) : decode (encode i) = .ok i :=
  (decodeReadsExactlyTheEncodedWords (encode i) i).2 rfl

/-- Settles O2: the ten words are those the commands encode to. -/
theorem opcodeMapWordsDecode : Obligations.OpcodeMapWordsDecode :=
  ⟨decode_encode .nop, decode_encode .crc32, decode_encode .adler32, decode_encode .parse, decode_encode .serialize,
    decode_encode .ctClear, decode_encode .ctAppend, decode_encode .ctRead, decode_encode .reframe,
    decode_encode .decrush⟩

/-! ## Reserved words -/

/-- The opcodes outside the map (R69). -/
def ReservedOpcode (n : Nat) : Prop := (0x03 ≤ n ∧ n ≤ 0x0F) ∨ (0x15 ≤ n ∧ n ≤ 0x1F) ∨ 0x22 ≤ n

theorem not_reservedOpcode_opcodeOf (i : Instr) : ¬ ReservedOpcode (opcodeOf i).toNat := by
  unfold ReservedOpcode
  cases i <;> decide

theorem decode_of_reserved {v : Word} (h : rsvdField v ≠ 0 ∨ ReservedOpcode (opcodeField v).toNat) :
    ∃ r, decode v = .error r := by
  cases hd : decode v with
  | error r => exact ⟨r, rfl⟩
  | ok i =>
    obtain ⟨hrsvd, hmap⟩ := decode_eq_ok_iff.1 hd
    rw [instrOfOpcode_eq_some_iff.1 hmap] at h
    exact absurd h (not_or.2 ⟨not_not_intro hrsvd, not_reservedOpcode_opcodeOf i⟩)

/-- Settles O3: a reserved word does not decode, and a word that does not decode is ILLEGAL_CMD. -/
theorem reservedWordIsIllegalCmd : Obligations.ReservedWordIsIllegalCmd := by
  intro v s h
  obtain ⟨r, hd⟩ := decode_of_reserved (v := v) h
  rw [csrWrite_cmd, runCommand_of_reject hd]
  rfl

/-! ## What a command leaves unchanged -/

theorem RuleFrame.refl (i : Instr) (s : State) : RuleFrame i s s := by constructor <;> intros <;> rfl

/-- STATUS apart, a command that ends leaves what its rule leaves when it succeeds. -/
theorem exec_frame {i : Instr} {s t : State} (h : exec i s = .next t) :
    RuleFrame i { s with status := t.status } t := by
  rw [exec_eq] at h
  rcases complete_cases h with ⟨u, hu, rfl⟩ | ⟨e, -, rfl⟩
  · exact { commandOf_frame hu with status := rfl }
  · exact RuleFrame.refl i (errorCompletion e s)

theorem ibufByte_congr {s t : State} (hbuf : t.ibuf = s.ibuf) (hdraw : t.resetCount = s.resetCount) (a : Nat) :
    ibufByte t a = ibufByte s a := by
  rw [ibufByte, ibufByte, hbuf, hdraw]

theorem obufByte_congr {s t : State} (hbuf : t.obuf = s.obuf) (hdraw : t.resetCount = s.resetCount) (a : Nat) :
    obufByte t a = obufByte s a := by
  rw [obufByte, obufByte, hbuf, hdraw]

/-- Settles O24: the frame of the command, with the buffers byte by byte. -/
theorem commandFrames : Obligations.CommandFrames := by
  intro i s t h
  have f := exec_frame h
  exact ⟨f.aOff, f.aLen, f.bOff, f.bLen, f.ctIndex, ibufByte_congr f.ibuf f.resetCount, f.params, f.resetCount,
    f.pending, f.replies, f.result, f.ctab,
    fun hser hread href => ⟨f.outLen hser hread href, obufByte_congr (f.obuf hser hread href) f.resetCount⟩,
    fun hread => ⟨f.ctTagLen hread, f.ctLen hread, f.ctDcrc hread, f.ctKind hread⟩⟩

/-! ## The region registers a command does not use -/

/-- The registers of each region, offset and length, changed. -/
def editRegions (fa fb : Word × Word → Word × Word) (s : State) : State :=
  { s with
    aOff := (fa (s.aOff, s.aLen)).1, aLen := (fa (s.aOff, s.aLen)).2
    bOff := (fb (s.bOff, s.bLen)).1, bLen := (fb (s.bOff, s.bLen)).2 }

theorem setRegionA_eq_editRegions (off n : Word) : setRegionA off n = editRegions (fun _ => (off, n)) id := rfl

theorem setRegionB_setRegionA_eq_editRegions (off n off' n' : Word) :
    (fun s => setRegionB off' n' (setRegionA off n s)) = editRegions (fun _ => (off, n)) (fun _ => (off', n')) := rfl

section
variable (fa fb : Word × Word → Word × Word) (s : State)

@[simp] theorem editRegions_ctIndex : (editRegions fa fb s).ctIndex = s.ctIndex := rfl
@[simp] theorem editRegions_ctab : (editRegions fa fb s).ctab = s.ctab := rfl
@[simp] theorem editRegions_params : (editRegions fa fb s).params = s.params := rfl
theorem editRegions_codecOf : codecOf (editRegions fa fb s) = codecOf s := rfl

theorem region_editRegions (off n : Word) : region (editRegions fa fb s) off n = region s off n := by
  have hbytes : ibufBytes (editRegions fa fb s) off.toNat n.toNat = ibufBytes s off.toNat n.toNat :=
    ibufBytes_congr fun _ _ _ => rfl
  rw [region, region, hbytes, editRegions_params]

theorem regionB_editRegions_id : regionB (editRegions fa id s) = regionB s :=
  region_editRegions fa id s s.bOff s.bLen

theorem complete_editRegions (r : Except Err State) :
    complete (editRegions fa fb s) (r.map (editRegions fa fb)) = mapNext (editRegions fa fb) (complete s r) := by
  cases r <;> rfl

/-! The rules that do not look at the changed registers take the same branches. -/

theorem serializeCommand_editRegions :
    serializeCommand (editRegions fa fb s) = (serializeCommand s).map (editRegions fa fb) := by
  rw [serializeCommand, serializeCommand, editRegions_ctab]
  cases serialize s.ctab with
  | error e => rfl
  | ok o => simp only [apply_ite (Except.map _)]; rfl

theorem readCommand_editRegions :
    readCommand (editRegions fa fb s) = (readCommand s).map (editRegions fa fb) := by
  rw [readCommand, readCommand, editRegions_ctab, editRegions_ctIndex]
  cases s.ctab[s.ctIndex.toNat]? with
  | none => rfl
  | some c => simp only [apply_ite (Except.map _)]; rfl

theorem decrushCommand_editRegions :
    decrushCommand (editRegions fa fb s) = (decrushCommand s).map (editRegions fa fb) := by
  rw [decrushCommand, decrushCommand, editRegions_codecOf, editRegions_params, editRegions_ctab]
  cases decrush (codecOf s) s.params s.ctab <;> rfl

theorem parseCommand_editRegions_id :
    parseCommand (editRegions fa id s) = (parseCommand s).map (editRegions fa id) := by
  rw [parseCommand, parseCommand, regionB_editRegions_id]
  cases regionB s with
  | error e => rfl
  | ok stream =>
    simp only
    cases parse stream with
    | error e => rfl
    | ok cs => simp only [apply_ite (Except.map _)]; rfl

theorem reframeCommand_editRegions_id :
    reframeCommand (editRegions fa id s) = (reframeCommand s).map (editRegions fa id) := by
  rw [reframeCommand, reframeCommand, regionB_editRegions_id, editRegions_codecOf, editRegions_params]
  cases regionB s with
  | error e => rfl
  | ok d =>
    simp only
    cases reframe (codecOf s) s.params d with
    | error e => rfl
    | ok z => simp only [apply_ite (Except.map _)]; rfl

theorem exec_editRegions {i : Instr}
    (h : commandOf i (editRegions fa fb s) = (commandOf i s).map (editRegions fa fb)) :
    exec i (editRegions fa fb s) = mapNext (editRegions fa fb) (exec i s) := by
  rw [exec_eq, exec_eq, h, complete_editRegions]

/-- A command without a region does not see the region registers. -/
theorem exec_editRegions_of_no_region {i : Instr}
    (hi : i = .nop ∨ i = .serialize ∨ i = .ctClear ∨ i = .ctRead ∨ i = .decrush) :
    exec i (editRegions fa fb s) = mapNext (editRegions fa fb) (exec i s) := by
  apply exec_editRegions
  rcases hi with rfl | rfl | rfl | rfl | rfl
  · rfl
  · exact serializeCommand_editRegions fa fb s
  · rfl
  · exact readCommand_editRegions fa fb s
  · exact decrushCommand_editRegions fa fb s

/-- A command with region B alone does not see region A's registers. -/
theorem exec_editRegions_of_regionB_alone {i : Instr} (hi : i = .parse ∨ i = .reframe) :
    exec i (editRegions fa id s) = mapNext (editRegions fa id) (exec i s) := by
  apply exec_editRegions
  rcases hi with rfl | rfl
  · exact parseCommand_editRegions_id fa s
  · exact reframeCommand_editRegions_id fa s

end

/-- Settles O25: setting region registers is an edit that the command's rule does not see. -/
theorem unusedRegionRegistersDoNotMatter : Obligations.UnusedRegionRegistersDoNotMatter := by
  refine ⟨fun i s off n off' n' hi => ?_, fun i s off n hi => ?_⟩
  · rw [setRegionB_setRegionA_eq_editRegions]
    exact exec_editRegions_of_no_region (fun _ => (off, n)) (fun _ => (off', n')) s hi
  · rw [setRegionA_eq_editRegions]
    exact exec_editRegions_of_regionB_alone (fun _ => (off, n)) s hi

/-! ## Regions -/

theorem region_zero_length_ok {s : State} {off : Word} (h : off.toNat ≤ s.params.ibufSize) :
    region s off 0 = .ok [] :=
  region_ok (n := 0) h

theorem region_zero_length_error {s : State} {off : Word} (h : off.toNat > s.params.ibufSize) :
    region s off 0 = .error .range :=
  region_error (n := 0) (Nat.not_le_of_gt h)

/-- Settles O28: the one comparison of naturals, both ways and at length 0. -/
theorem regionIsCheckedWithoutWrap : Obligations.RegionIsCheckedWithoutWrap :=
  ⟨fun _ => ⟨rfl, rfl⟩, fun s off n =>
    ⟨fun h => region_error (Nat.not_le_of_gt h),
      fun h => ⟨ibufBytes s off.toNat n.toNat, region_ok h, ibufBytes_length s off.toNat n.toNat,
        fun _ hk => ibufBytes_getElem? s off.toNat hk⟩,
      region_zero_length_ok, region_zero_length_error⟩⟩

/-! ## The lines of a host program -/

theorem wibTxns_eq_flatMap (a : Nat) (bs : List Nat) :
    wibTxns a bs = ((bs.zipIdx a).map fun p => HostLine.wib p.2 p.1).flatMap expandLine := by
  induction bs generalizing a with
  | nil => rfl
  | cons b bs ih => rw [wibTxns, ih (a + 1)]; rfl

theorem robTxns_eq_flatMap (a n : Nat) :
    robTxns a n = ((List.range n).map fun k => HostLine.rob (a + k)).flatMap expandLine := by
  induction n generalizing a with
  | zero => rfl
  | succ n ih =>
    rw [robTxns, ih (a + 1), List.range_succ_eq_map]
    simp [expandLine, List.flatMap_map, Nat.add_assoc, Nat.add_comm 1]

theorem isU32_iff {n : Nat} : isU32 n = true ↔ n < 2 ^ 32 := decide_eq_true_iff

theorem isSpan_iff {a n : Nat} : isSpan a n = true ↔ a < 2 ^ 32 ∧ a + n ≤ 2 ^ 32 := by
  simp [isSpan, isU32_iff]

theorem wr_named_wellFormed_iff {r : Csr} {v : Nat} :
    (HostLine.wr (.named r) v).wellFormed = true ↔ isU32 v = true := by
  simp [HostLine.wellFormed, RegName.wellFormed]

theorem wib_wellFormed_iff {a b : Nat} : (HostLine.wib a b).wellFormed = true ↔ a < 2 ^ 32 ∧ b ≤ 255 := by
  simp [HostLine.wellFormed, isU32_iff]

theorem wibs_wellFormed_iff {a : Nat} {bs : List Nat} :
    (HostLine.wibs a bs).wellFormed = true ↔ isSpan a bs.length = true ∧ ∀ b ∈ bs, b ≤ 255 := by
  simp [HostLine.wellFormed]

theorem isExpansion_cmd (i : Instr) : IsExpansion (.cmd i) [.wr (.named .cmd) (opcodeOf i).toNat] := by
  have hop := (opcodeOf i).isLt
  exact ⟨rfl, List.forall_mem_singleton.2 (wr_named_wellFormed_iff.2 (isU32_iff.2 (by omega)))⟩

/-- The word of `cmd` is the word the command encodes to: RSVD 0 above its opcode. -/
theorem wordOfNat_opcodeOf (i : Instr) : wordOfNat (opcodeOf i).toNat = encode i := by cases i <;> rfl

theorem isExpansion_wibs {a : Nat} {bs : List Nat} (h : (HostLine.wibs a bs).wellFormed = true) :
    IsExpansion (.wibs a bs) ((bs.zipIdx a).map fun p => .wib p.2 p.1) := by
  obtain ⟨hspan, hbytes⟩ := wibs_wellFormed_iff.1 h
  obtain ⟨-, hend⟩ := isSpan_iff.1 hspan
  refine ⟨wibTxns_eq_flatMap a bs, List.forall_mem_map.2 fun p hp => wib_wellFormed_iff.2 ⟨?_, ?_⟩⟩
  · exact (List.snd_lt_add_of_mem_zipIdx hp).trans_le hend
  · exact hbytes p.1 (List.fst_mem_of_mem_zipIdx hp)

/-- ASCII codes are bytes. -/
theorem isExpansion_wibText {a : Nat} {text : List Char} (h : (HostLine.wibText a text).wellFormed = true) :
    IsExpansion (.wibText a text) [.wibs a (text.map Char.toNat)] := by
  obtain ⟨hspan, hascii⟩ : isSpan a text.length = true ∧ ∀ c ∈ text, c.toNat < 128 := by
    simpa [HostLine.wellFormed] using h
  refine ⟨(List.append_nil _).symm, List.forall_mem_singleton.2 (wibs_wellFormed_iff.2 ⟨?_, ?_⟩)⟩
  · rwa [List.length_map]
  · exact List.forall_mem_map.2 fun c hc => (hascii c hc).le.trans (by decide)

theorem isExpansion_robs {a n : Nat} (h : (HostLine.robs a n).wellFormed = true) :
    IsExpansion (.robs a n) ((List.range n).map fun k => .rob (a + k)) := by
  obtain ⟨-, hend⟩ := isSpan_iff.1 h
  refine ⟨robTxns_eq_flatMap a n, List.forall_mem_map.2 fun k hk => isU32_iff.2 ?_⟩
  have hlt := List.mem_range.1 hk
  omega

/-- A line that stands for two writes of named registers. -/
theorem isExpansion_wr_pair {l : HostLine} {r r' : Csr} {v v' : Nat} (hl : expandLine l = [wrTxn r v, wrTxn r' v'])
    (h : (isU32 v && isU32 v') = true) : IsExpansion l [.wr (.named r) v, .wr (.named r') v'] := by
  rw [Bool.and_eq_true] at h
  exact ⟨hl, by simpa [wr_named_wellFormed_iff] using h⟩

/-- Settles O58: one lemma a form. -/
theorem pseudoLinesExpand : Obligations.PseudoLinesExpand := by
  refine ⟨fun i => ⟨isExpansion_cmd i, ?_, decode_encode i⟩, fun _ _ => isExpansion_wibs,
    fun _ _ => isExpansion_wibText, fun _ _ => isExpansion_robs, fun _ _ => isExpansion_wr_pair rfl,
    fun _ _ => isExpansion_wr_pair rfl, rfl, by decide⟩
  rw [← wordOfNat_opcodeOf]; rfl

/-! ## Plain lines -/

theorem csrOfIndex_csrIndex (r : Csr) : csrOfIndex (BitVec.ofNat 8 (csrIndex r)) = some r := by cases r <;> rfl

theorem byte_ofNat_toNat {n : Nat} (h : n ≤ 255) : (BitVec.ofNat 8 n).toNat = n := by
  rw [BitVec.toNat_ofNat]; omega

/-- A well-formed NAME stands for the index its line is expanded with. -/
theorem namesIndex_indexOfName {name : RegName} (h : name.wellFormed = true) : NamesIndex name (indexOfName name) := by
  cases name with
  | named r => exact csrOfIndex_csrIndex r
  | index n => exact byte_ofNat_toNat (of_decide_eq_true h)

/-- Settles O59: each number of a well-formed line is kept by the word or byte it is put into. -/
theorem plainLinesAreTransactions : Obligations.PlainLinesAreTransactions := by
  refine ⟨fun name v h => ?_, fun name h => ⟨_, namesIndex_indexOfName h, rfl⟩, fun a b h => ?_,
    fun a h => ⟨_, wordOfNat_toNat (isU32_iff.1 h), rfl⟩, fun a h => ⟨_, wordOfNat_toNat (isU32_iff.1 h), rfl⟩,
    rfl, fun l p => ?_⟩
  · obtain ⟨hname, hv⟩ := (Bool.and_eq_true _ _).mp h
    exact ⟨_, _, namesIndex_indexOfName hname, wordOfNat_toNat (isU32_iff.1 hv), rfl⟩
  · obtain ⟨ha, hb⟩ := wib_wellFormed_iff.1 h
    exact ⟨_, _, wordOfNat_toNat ha, byte_ofNat_toNat hb, rfl⟩
  · rw [expandProgram, List.flatMap_cons, List.map_append]; rfl

end Sys2Proof.Machine
end

section
/-! SUPPORT. Proofs of the family 40_checksum.md: the CRC-32 loop, its vectors, its table, and that it sees a change of one
byte (O29 to O32), the Adler-32 sums (O33), and the commands NOP, CRC32 and ADLER32 (O34 to O36). -/

namespace Sys2Proof.Machine

open Sys2Proof.Claims

/-! ## The CRC-32 loop -/

theorem crcBits_eq_iterate (n : Nat) (c : Word) : crcBits n c = crcBit^[n] c := by
  induction n generalizing c with
  | zero => rfl
  | succ n ih => exact ih (crcBit c)

/-- The complement of a CRC is the register after the message. -/
theorem crc32_xor_allOnes (m : Bytes) : crc32 m ^^^ 0xFFFFFFFF = m.foldl crcByte 0xFFFFFFFF := by
  rw [crc32, xor_cancel_right]

theorem crc32_append_singleton (m : Bytes) (b : Byte) :
    crc32 (m ++ [b]) = crcByte (crc32 m ^^^ 0xFFFFFFFF) b ^^^ 0xFFFFFFFF := by
  rw [crc32_xor_allOnes, crc32, List.foldl_concat]

/-- Settles O29: one more byte is one more turn of the outer loop, on the register the complement gives back. -/
theorem crc32FollowsTheLoop : Obligations.Crc32FollowsTheLoop := by
  refine ⟨rfl, fun m b => ?_⟩
  rw [crc32_append_singleton, crcByte, crcBits_eq_iterate]
  rfl

/-! ## The table -/

theorem crcTable_getD (b : Byte) : crcTable.getD b.toNat 0 = crcBits 8 (b.setWidth 32) := by
  have hb : b.toNat < (List.range 256).length := by rw [List.length_range]; exact b.isLt
  rw [crcTable, List.getD_eq_getElem _ _ (by rwa [List.length_map]), List.getElem_map, List.getElem_range,
    BitVec.ofNat_toNat]

theorem byte_setWidth_shiftRight (b : Byte) : b.setWidth 32 >>> 8 = 0#32 := by
  rw [← BitVec.setWidth_ushiftRight (by decide), BitVec.ushiftRight_eq_zero le_rfl, BitVec.setWidth_zero]

/-- The register without its low byte only shifts, and the loop is linear, so the low byte alone goes through it. -/
theorem crcBits_eight (x : Word) : crcBits 8 x = x >>> 8 ^^^ crcBits 8 ((x.extractLsb' 0 8).setWidth 32) := by
  have hlow : ∀ k < 8, (x ^^^ (x.extractLsb' 0 8).setWidth 32).getLsbD k = false := fun k hk => by
    have hk' : k < 32 := by omega
    simp [hk, hk']
  have hshift : crcBits 8 x ^^^ crcBits 8 ((x.extractLsb' 0 8).setWidth 32) = x >>> 8 := by
    rw [← crcBits_xor, crcBits_shift 8 _ hlow, BitVec.ushiftRight_xor_distrib, byte_setWidth_shiftRight,
      BitVec.xor_zero]
  rw [← hshift, xor_cancel_right]

theorem crcTableByte_eq_crcByte : crcTableByte = crcByte := by
  funext c b
  rw [crcTableByte, crcTable_getD, crcByte, crcBits_eight (c ^^^ b.setWidth 32), BitVec.ushiftRight_xor_distrib,
    byte_setWidth_shiftRight, BitVec.xor_zero]

/-- Settles O30: a look-up is the outer loop's body. -/
theorem tableDrivenCrcAgrees : Obligations.TableDrivenCrcAgrees := fun m => by
  rw [crc32ByTable, crcTableByte_eq_crcByte, crc32]

/-! ## A change of one byte -/

theorem crcByte_left_inj {c c' : Word} {b : Byte} (h : crcByte c b = crcByte c' b) : c = c' :=
  (BitVec.xor_left_inj _).1 (crcBits_inj 8 h)

theorem crcByte_right_inj {c : Word} {b b' : Byte} (h : crcByte c b = crcByte c b') : b = b' := by
  have hext : b.setWidth 32 = b'.setWidth 32 := (BitVec.xor_right_inj c).1 (crcBits_inj 8 h)
  simpa using congrArg (BitVec.setWidth 8) hext

/-- Equal bytes never bring two registers together. -/
theorem foldl_crcByte_inj (q : Bytes) {c c' : Word} (h : q.foldl crcByte c = q.foldl crcByte c') : c = c' := by
  induction q generalizing c c' with
  | nil => exact h
  | cons b q ih => exact crcByte_left_inj (ih h)

/-- Settles O31: the byte parts the registers, and the bytes after it keep them apart. -/
theorem oneByteChangeChangesTheCrc : Obligations.OneByteChangeChangesTheCrc := by
  intro p q b b' hne h
  have hreg : (p ++ b :: q).foldl crcByte 0xFFFFFFFF = (p ++ b' :: q).foldl crcByte 0xFFFFFFFF := by
    rw [← crc32_xor_allOnes, h, crc32_xor_allOnes]
  rw [List.foldl_append, List.foldl_append] at hreg
  exact hne (crcByte_right_inj (foldl_crcByte_inj q hreg))

/-! ## The vectors of CRC-32 -/

/-- Settles O32: the loop runs on the four messages. -/
theorem crc32Vectors : Obligations.Crc32Vectors := by
  unfold Obligations.Crc32Vectors; decide +kernel

/-! ## The Adler-32 sums -/

theorem adlerByte_lt (p : Nat × Nat) (x : Byte) : (adlerByte p x).1 < 65521 ∧ (adlerByte p x).2 < 65521 :=
  ⟨Nat.mod_lt _ (by decide), Nat.mod_lt _ (by decide)⟩

theorem adlerSums_lt (m : Bytes) : (adlerSums m).1 < 65521 ∧ (adlerSums m).2 < 65521 := by
  rcases List.eq_nil_or_concat' m with rfl | ⟨l, x, rfl⟩
  · decide
  · rw [adlerSums_append_singleton]; exact adlerByte_lt (adlerSums l) x

theorem adler32_toNat (m : Bytes) : (adler32 m).toNat = (adlerSums m).2 * 65536 + (adlerSums m).1 := by
  obtain ⟨ha, hb⟩ := adlerSums_lt m
  exact wordOfNat_toNat (by omega)

/-- Settles O33: the bounds by the last byte, the step by `adlerByte`, the vectors by running the sums. -/
theorem adler32SumsStayInRange : Obligations.Adler32SumsStayInRange := by
  refine ⟨fun m => ⟨(adlerSums_lt m).1, (adlerSums_lt m).2, adler32_toNat m⟩, rfl, fun m x => ?_, by decide, by decide⟩
  rw [adlerSums_append_singleton]
  exact ⟨rfl, rfl⟩

/-! ## NOP -/

theorem exec_nop (s : State) : exec .nop s = .next { s with status := succeeded s } := rfl

/-- ERR_SEEN as the host reads it. -/
theorem statusWord_getLsbD_31 (st : Status) : st.word.getLsbD 31 = st.errSeen := by
  obtain ⟨-, -, hseen, -⟩ := statusWordHoldsItsFields st
  exact hseen

/-- A word with the opcode of NOP that is not NOP's has RSVD not 0. -/
theorem rsvdField_ne_zero_of_opcode_nop {v : Word} (hop : v.extractLsb' 0 8 = 0) (hv : v ≠ 0) :
    v.extractLsb' 8 24 ≠ 0 := fun hrsvd =>
  hv (eq_encode_iff (i := .nop).2 ⟨hrsvd, hop⟩)

/-- Settles O34: the success completion of a rule that does nothing, and a reserved word by its RSVD. -/
theorem nopClearsTheErrorCode : Obligations.NopClearsTheErrorCode := by
  refine ⟨decode_encode .nop, fun s => ⟨exec_nop s, fun hword => ?_, fun v hop hv => ?_⟩⟩
  · have hseen : s.status.errSeen = true := by rw [← statusWord_getLsbD_31, hword]; decide
    show Status.word ⟨0x00, false, s.status.errSeen⟩ = 0x80000000
    rw [hseen]; decide
  · exact reservedWordIsIllegalCmd v s (.inl (rsvdField_ne_zero_of_opcode_nop hop hv))

/-! ## CRC32 and ADLER32 -/

theorem complete_checksumCommand_of_inIbuf (f : Bytes → Word) {s : State} (ha : AInIbuf s) (hb : BInIbuf s) :
    complete s (checksumCommand f s) =
      .next { s with result := f (aBytes s ++ bBytes s), status := succeeded s } := by
  rw [checksumCommand, regionsAB_ok ha hb]
  rfl

theorem complete_checksumCommand_of_not_inIbuf (f : Bytes → Word) {s : State} (h : ¬ AInIbuf s ∨ ¬ BInIbuf s) :
    complete s (checksumCommand f s) = .next { s with status := failed 0x02 } := by
  rw [checksumCommand, regionsAB_error h]
  rfl

theorem aBytes_eq_nil {s : State} (h : s.aLen = 0) : aBytes s = [] := by rw [aBytes, h]; rfl

theorem bBytes_eq_nil {s : State} (h : s.bLen = 0) : bBytes s = [] := by rw [bBytes, h]; rfl

/-- Settles O35: the rule of a checksum, at the function and the vectors of CRC-32. -/
theorem crc32Result : Obligations.Crc32Result := by
  obtain ⟨hempty, -, hiend, -⟩ := crc32Vectors
  refine ⟨decode_encode .crc32, fun s => ⟨complete_checksumCommand_of_inIbuf crc32,
    complete_checksumCommand_of_not_inIbuf crc32, fun ha hb => ?_, fun ha hb => ?_⟩⟩
  · rw [aBytes_eq_nil ha, bBytes_eq_nil hb]; exact hempty
  · rw [ha, bBytes_eq_nil hb]; exact hiend

/-- Settles O36: the rule of a checksum, at the function and the vectors of Adler-32. -/
theorem adler32Result : Obligations.Adler32Result := by
  obtain ⟨-, -, -, hempty, hwikipedia⟩ := adler32SumsStayInRange
  refine ⟨decode_encode .adler32, fun s => ⟨complete_checksumCommand_of_inIbuf adler32,
    complete_checksumCommand_of_not_inIbuf adler32, fun ha hb => ?_, fun ha hb => ?_⟩⟩
  · rw [aBytes_eq_nil ha, bBytes_eq_nil hb]; exact hempty
  · rw [aBytes_eq_nil ha, hb]; exact hwikipedia

end Sys2Proof.Machine
end

section
/-! SUPPORT. Proofs of the family 41_chunk_codec.md: parse reads exactly whole records (O38, O39), serialize and its round
trips with parse (O41 to O43), and the commands PARSE, SERIALIZE, CT_CLEAR, CT_APPEND and CT_READ (O40, O44 to O48). -/

namespace Sys2Proof.Machine

open Sys2Proof.Claims

/-! ## Parse -/

/-- After SIG any bound on the turns that is large enough will do. -/
theorem parse_sig_append {n : Nat} {rest : Bytes} (hn : rest.length ≤ n) :
    parse (sig ++ rest) = parseRecords n rest := by
  have hlen : ¬ (sig ++ rest).length < 8 := by rw [List.length_append]; exact Nat.not_lt.2 (Nat.le_add_right 8 _)
  have htake : (sig ++ rest).take 8 = sig := List.take_left' rfl
  have hdrop : (sig ++ rest).drop 8 = rest := List.drop_left' rfl
  rw [parse, if_neg (not_or.2 ⟨hlen, not_not_intro htake⟩), hdrop]
  exact parseRecords_fuel (by simp) hn

/-- A whole record at the front goes to the front of the result, and an error behind it stays. -/
theorem parse_declaredRecord_append {c : Chunk} (hc : Representable c) (rest : Bytes) :
    parse (sig ++ (declaredRecord c ++ rest)) = (parse (sig ++ rest)).map (c :: ·) := by
  have hle : rest.length ≤ (declaredRecord c ++ rest).length := by simp
  obtain ⟨htag, hdata⟩ := hc
  rw [parse_sig_append (Nat.le_succ _), parse_sig_append hle, declaredRecord, parseRecords_record htag hdata]
  cases parseRecords _ rest <;> rfl

theorem parse_declaredRecords_append {cs : List Chunk} (hcs : ∀ c ∈ cs, Representable c) (rest : Bytes) :
    parse (sig ++ cs.flatMap declaredRecord ++ rest) = (parse (sig ++ rest)).map (cs ++ ·) := by
  induction cs with
  | nil => cases h : parse (sig ++ rest) <;> simp [Except.map, h]
  | cons c cs ih =>
    obtain ⟨hc, hcs⟩ := List.forall_mem_cons.1 hcs
    rw [List.append_assoc] at ih ⊢
    rw [List.flatMap_cons, List.append_assoc, parse_declaredRecord_append hc, ih hcs]
    cases parse (sig ++ rest) <;> rfl

theorem parse_declaredRecords {cs : List Chunk} (hcs : ∀ c ∈ cs, Representable c) :
    parse (sig ++ cs.flatMap declaredRecord) = .ok cs := by
  have h := parse_declaredRecords_append hcs []
  rw [List.append_nil] at h
  rw [h, parse_sig_append (Nat.le_refl _)]
  simp [parseRecords, Except.map]

/-- The loop succeeds on nothing but whole records. -/
theorem eq_declaredRecords_of_parseRecords {n : Nat} {s : Bytes} {cs : List Chunk} (h : parseRecords n s = .ok cs) :
    s = cs.flatMap declaredRecord ∧ ∀ c ∈ cs, Representable c := by
  induction n generalizing s cs with
  | zero =>
    unfold parseRecords at h
    split at h <;> cases h
    exact ⟨‹_›, List.forall_mem_nil _⟩
  | succ n ih =>
    rcases parseRecords_ok h with ⟨rfl, rfl⟩ | ⟨c, cs', rest, htag, hdata, rfl, rfl, hrest⟩
    · exact ⟨rfl, List.forall_mem_nil _⟩
    · obtain ⟨rfl, hcs'⟩ := ih hrest
      exact ⟨rfl, List.forall_mem_cons.2 ⟨⟨htag, hdata⟩, hcs'⟩⟩

theorem parse_of_not_prefix {s : Bytes} (h : ¬ sig <+: s) : parse s = .error .signature := by
  rw [parse, if_pos (.inr fun htake => h (htake ▸ List.take_prefix 8 s))]

theorem parse_eq_signature_iff {s : Bytes} : parse s = .error .signature ↔ ¬ sig <+: s := by
  refine ⟨?_, parse_of_not_prefix⟩
  rintro h ⟨rest, rfl⟩
  rw [parse_sig_append (Nat.le_refl _)] at h
  exact absurd (parseRecords_error h) (by decide)

theorem parse_eq_ok_iff {s : Bytes} {cs : List Chunk} :
    parse s = .ok cs ↔ s = sig ++ cs.flatMap declaredRecord ∧ ∀ c ∈ cs, Representable c := by
  constructor
  · intro h
    by_cases hsig : sig <+: s
    · obtain ⟨rest, rfl⟩ := hsig
      rw [parse_sig_append (Nat.le_refl _)] at h
      obtain ⟨rfl, hcs⟩ := eq_declaredRecords_of_parseRecords h
      exact ⟨rfl, hcs⟩
    · rw [parse_of_not_prefix hsig] at h
      cases h
  · rintro ⟨rfl, hcs⟩
    exact parse_declaredRecords hcs

/-- Settles O38: by induction on the turns of the loop one way, and on the records the other. -/
theorem parseReadsExactlyTheRecords : Obligations.ParseReadsExactlyTheRecords := fun _ =>
  ⟨fun _ => parse_eq_ok_iff, parse_eq_signature_iff, fun _ => parse_error⟩

/-- Where the next record is cut short the loop stops. -/
theorem parseRecords_of_truncated {n : Nat} {s : Bytes} (hne : s ≠ [])
    (hshort : s.length < 8 ∨ s.length < 8 + (rdBe32 (s.take 4) + 4)) : parseRecords (n + 1) s = .error .framing := by
  rw [parseRecords, if_neg hne]
  by_cases h8 : s.length < 8
  · rw [if_pos h8]
  · rw [if_neg h8, if_pos (by rw [List.length_drop]; omega)]

/-- Settles O39: the whole records are passed over, and the loop stops at the tail. -/
theorem truncatedRecordIsFraming : Obligations.TruncatedRecordIsFraming := fun cs tail hcs hne hshort => by
  rw [parse_declaredRecords_append hcs, parse_sig_append (Nat.le_succ _), parseRecords_of_truncated hne hshort]
  rfl

/-! ## Serialize -/

/-- What serialize writes for a record is the declared form of the record with its CRC made fresh. -/
theorem serialize_eq_freshened {cs : List Chunk} (h : ∀ c ∈ cs, c.tag.length = 4) :
    serialize cs = .ok (sig ++ (cs.map freshened).flatMap declaredRecord) := by
  rw [serialize_ok h, List.flatMap_map]
  rfl

theorem recordBytes_length {c : Chunk} (h : c.tag.length = 4) : (recordBytes c).length = 12 + c.data.length := by
  simp only [recordBytes, List.length_append, be32_length, h]
  omega

theorem flatMap_recordBytes_length {cs : List Chunk} (h : ∀ c ∈ cs, c.tag.length = 4) :
    (cs.flatMap recordBytes).length = (cs.map fun c => 12 + c.data.length).sum := by
  rw [List.length_flatMap, List.map_congr_left fun c hc => recordBytes_length (h c hc)]

theorem data_length_le_ctabBytes {c : Chunk} {cs : List Chunk} (h : c ∈ cs) : c.data.length ≤ ctabBytes cs :=
  calc c.data.length ≤ chunkBytes c := Nat.le_add_left _ _
    _ ≤ ctabBytes cs := List.single_le_sum (fun _ _ => Nat.zero_le _) _ (List.mem_map_of_mem h)

theorem ctabBytes_lt_of_wellFormed {p : Params} (h : p.wellFormed = true) : p.ctabBytes < 2 ^ 32 := by
  simp only [Params.wellFormed, sizeOk, Bool.and_eq_true, decide_eq_true_eq] at h
  omega

/-- Settles O41: the capacity of CTAB bounds every data length, and the records have 12 bytes beside their data. -/
theorem serializeChecksTagsAndHasLength : Obligations.SerializeChecksTagsAndHasLength := by
  refine ⟨fun s hp hfits c hc => ?_, fun cs => ⟨fun htags => ⟨_, serialize_ok htags, ?_, rfl⟩, serialize_tagLength⟩⟩
  · calc c.data.length ≤ ctabBytes s.ctab := data_length_le_ctabBytes hc
      _ ≤ s.params.ctabBytes := hfits.2
      _ < 2 ^ 32 := ctabBytes_lt_of_wellFormed hp
  · rw [List.length_append, flatMap_recordBytes_length htags]
    rfl

theorem serialize_map_dcrc (cs : List Chunk) (f : Chunk → Word) :
    serialize (cs.map fun c => { c with dcrc := f c }) = serialize cs := by
  rw [serialize, serialize, List.all_map, List.flatMap_map]
  rfl

/-- Settles O42: neither the tag check nor the bytes of a record look at its declared CRC. -/
theorem serializeNeverReadsDcrc : Obligations.SerializeNeverReadsDcrc := fun cs f =>
  ⟨serialize_map_dcrc cs f, fun htags => (serialize_map_dcrc cs f).trans (serialize_eq_freshened htags)⟩

theorem freshened_of_validCrc {c : Chunk} (h : ValidCrc c) : freshened c = c := by
  rw [freshened, ← h]

theorem map_freshened_of_validCrc {cs : List Chunk} (h : ∀ c ∈ cs, ValidCrc c) : cs.map freshened = cs := by
  rw [List.map_congr_left fun c hc => freshened_of_validCrc (h c hc), List.map_id']

/-- Fresh CRCs touch neither tag nor data. -/
theorem representable_of_mem_map_freshened {cs : List Chunk} (h : ∀ c ∈ cs, Representable c) :
    ∀ c ∈ cs.map freshened, Representable c :=
  List.forall_mem_map.2 h

theorem serialize_of_representable {cs : List Chunk} (h : ∀ c ∈ cs, Representable c) :
    serialize cs = .ok (sig ++ (cs.map freshened).flatMap declaredRecord) :=
  serialize_eq_freshened fun c hc => (h c hc).1

/-- What was parsed serializes to the same records with fresh CRCs. -/
theorem serialize_of_parse_ok {s : Bytes} {cs : List Chunk} (h : parse s = .ok cs) :
    s = sig ++ cs.flatMap declaredRecord ∧
    serialize cs = .ok (sig ++ (cs.map freshened).flatMap declaredRecord) := by
  obtain ⟨hs, hcs⟩ := parse_eq_ok_iff.1 h
  exact ⟨hs, serialize_of_representable hcs⟩

/-- Settles O43: both directions go through the records, and making a valid CRC fresh changes nothing. -/
theorem parseSerializeRoundTrip : Obligations.ParseSerializeRoundTrip := by
  refine ⟨fun s cs h hvalid => ?_, fun _ _ => serialize_of_parse_ok, fun cs hcs => ?_⟩
  · obtain ⟨hs, hser⟩ := serialize_of_parse_ok h
    rw [hser, map_freshened_of_validCrc hvalid, hs]
  · exact ⟨_, serialize_of_representable hcs, parse_declaredRecords (representable_of_mem_map_freshened hcs)⟩

/-! ## How a rule becomes a command -/

theorem exec_of_commandOf_ok (i : Instr) {s u : State} (h : commandOf i s = .ok u) :
    exec i s = .next (successCompletion u) := by
  rw [exec_eq, h, complete_ok]

theorem failsWith_of_commandOf_error (i : Instr) {s : State} {e : Err} (h : commandOf i s = .error e) :
    FailsWith i s e.code := by
  rw [FailsWith, exec_eq, h, complete_error]
  rfl

/-- A state with the OBUF and OUT_LEN of an output has it written, whatever else it holds. -/
theorem wroteOutput_of_eq {o : Bytes} {s t : State} (hobuf : t.obuf = (writeOutput o s).obuf)
    (hlen : t.outLen = wordOfNat o.length) (hdraw : t.resetCount = s.resetCount) : WroteOutput o s t := by
  have hbyte : ∀ a, obufByte t a = obufByte (writeOutput o s) a := obufByte_congr hobuf hdraw
  refine ⟨hlen, ?_, fun a ha => ?_⟩
  · rw [obufBytes_congr fun a _ _ => hbyte a, obufBytes_writeOutput]
  · rw [hbyte, obufByte_writeOutput_above ha]

/-! ## PARSE -/

theorem parseCommand_range {s : State} (hb : ¬ BInIbuf s) : parseCommand s = .error .range := by
  rw [parseCommand, regionB_error hb]

theorem parseCommand_parse_error {s : State} {e : Err} (hb : BInIbuf s) (hp : parse (bBytes s) = .error e) :
    parseCommand s = .error e := by
  simp only [parseCommand, regionB_ok hb, hp]

theorem parseCommand_parse_ok {s : State} {cs : List Chunk} (hb : BInIbuf s) (hp : parse (bBytes s) = .ok cs) :
    parseCommand s = if fitsCtab s.params cs then .ok { s with ctab := cs } else .error .capacity := by
  simp only [parseCommand, regionB_ok hb, hp]

theorem parseCommand_capacity {s : State} {cs : List Chunk} (hb : BInIbuf s) (hp : parse (bBytes s) = .ok cs)
    (hfull : cs.length > s.params.maxChunks ∨ ctabBytes cs > s.params.ctabBytes) :
    parseCommand s = .error .capacity := by
  rw [parseCommand_parse_ok hb hp, if_neg (by rw [fitsCtab_iff]; omega)]

/-- Settles O40: the rule of PARSE past its three checks. -/
theorem parseResult : Obligations.ParseResult := fun s cs hb hp hlen hbytes => by
  have hrule : commandOf .parse s = .ok { s with ctab := cs } := by
    rw [commandOf, parseCommand_parse_ok hb hp, if_pos (fitsCtab_iff.2 ⟨hlen, hbytes⟩)]
  exact exec_of_commandOf_ok _ hrule

/-! ## SERIALIZE -/

theorem serializeCommand_tagLength {s : State} (h : ∃ c ∈ s.ctab, c.tag.length ≠ 4) :
    serializeCommand s = .error .tagLength := by
  rw [serializeCommand, serialize_tagLength h]

theorem serializeCommand_serialize_ok {s : State} {o : Bytes} (h : serialize s.ctab = .ok o) :
    serializeCommand s = if o.length > s.params.obufSize then .error .capacity else .ok (writeOutput o s) := by
  rw [serializeCommand, h]

theorem serializeCommand_capacity {s : State} {o : Bytes} (h : serialize s.ctab = .ok o)
    (hlong : o.length > s.params.obufSize) : serializeCommand s = .error .capacity := by
  rw [serializeCommand_serialize_ok h, if_pos hlong]

/-- Settles O44: the rule of SERIALIZE past its two checks writes the stream as an output. -/
theorem serializeResult : Obligations.SerializeResult := fun s o ho hlen => by
  have hrule : commandOf .serialize s = .ok (writeOutput o s) := by
    rw [commandOf, serializeCommand_serialize_ok ho, if_neg (Nat.not_lt.2 hlen)]
  exact ⟨_, exec_of_commandOf_ok _ hrule, wroteOutput_of_eq rfl rfl rfl, rfl, rfl⟩

/-! ## CT_CLEAR -/

/-- Settles O45: its word, and the success completion of the emptied table. -/
theorem ctClearEmptiesTheTable : Obligations.CtClearEmptiesTheTable :=
  ⟨decode_encode .ctClear, fun _ => exec_of_commandOf_ok .ctClear rfl⟩

/-! ## CT_APPEND -/

theorem appendCommand_range {s : State} (h : ¬ AInIbuf s ∨ ¬ BInIbuf s) : appendCommand s = .error .range := by
  rw [appendCommand, regionsAB_error h]

theorem appendCommand_inIbuf {s : State} (ha : AInIbuf s) (hb : BInIbuf s) :
    appendCommand s =
      if fitsCtab s.params (s.ctab ++ [freshChunk (aBytes s) (bBytes s)]) then
        .ok { s with ctab := s.ctab ++ [freshChunk (aBytes s) (bBytes s)] }
      else .error .capacity := by
  rw [appendCommand, regionsAB_ok ha hb]

theorem appendCommand_capacity {s : State} (ha : AInIbuf s) (hb : BInIbuf s)
    (hfull : s.ctab.length + 1 > s.params.maxChunks ∨
      ctabBytes s.ctab + (aBytes s).length + (bBytes s).length > s.params.ctabBytes) :
    appendCommand s = .error .capacity := by
  rw [appendCommand_inIbuf ha hb, if_neg (by rw [fitsCtab_append_fresh]; omega)]

/-- Settles O46: the regions first, then the two bounds of the table with the fresh record at its end. -/
theorem ctAppendResult : Obligations.CtAppendResult := by
  refine fun s => ⟨fun ha hb hlen hbytes => ?_,
    fun h => failsWith_of_commandOf_error .ctAppend (appendCommand_range h),
    fun ha hb hfull => failsWith_of_commandOf_error .ctAppend (appendCommand_capacity ha hb hfull)⟩
  have hrule : commandOf .ctAppend s = .ok { s with ctab := s.ctab ++ [freshChunk (aBytes s) (bBytes s)] } := by
    rw [commandOf, appendCommand_inIbuf ha hb, if_pos ((fitsCtab_append_fresh _ _ _ _).2 ⟨hlen, hbytes⟩)]
  exact exec_of_commandOf_ok _ hrule

/-! ## CT_READ -/

theorem readCommand_range {s : State} (h : s.ctab.length ≤ s.ctIndex.toNat) : readCommand s = .error .range := by
  rw [readCommand, List.getElem?_eq_none h]

theorem readCommand_record {s : State} {c : Chunk} (h : s.ctab[s.ctIndex.toNat]? = some c) :
    readCommand s =
      if c.tag.length + c.data.length > s.params.obufSize then .error .capacity else .ok (readRecord c s) := by
  rw [readCommand, h]
  rfl

theorem readCommand_capacity {s : State} {c : Chunk} (h : s.ctab[s.ctIndex.toNat]? = some c)
    (hlong : c.tag.length + c.data.length > s.params.obufSize) : readCommand s = .error .capacity := by
  rw [readCommand_record h, if_pos hlong]

/-- Settles O47: the rule of CT_READ past its two checks writes the record as an output, and its five registers. -/
theorem ctReadResult : Obligations.CtReadResult := fun s c hc hlen => by
  have hrule : commandOf .ctRead s = .ok (readRecord c s) := by
    rw [commandOf, readCommand_record hc, if_neg (Nat.not_lt.2 hlen)]
  refine ⟨_, exec_of_commandOf_ok _ hrule, wroteOutput_of_eq rfl rfl rfl, rfl, rfl, rfl, ?_, rfl, rfl⟩
  show kindCode (kind c.tag) = _
  cases kind c.tag <;> rfl

/-! ## The errors of PARSE, SERIALIZE and CT_READ -/

/-- Settles O48: each rule stops at its first check that fails. -/
theorem chunkCodecCommandErrors : Obligations.ChunkCodecCommandErrors := fun _ =>
  ⟨fun hb => failsWith_of_commandOf_error .parse (parseCommand_range hb),
    fun hb hp => failsWith_of_commandOf_error .parse (parseCommand_parse_error hb hp),
    fun hb hp => failsWith_of_commandOf_error .parse (parseCommand_parse_error hb hp),
    fun _ hb hp hfull => failsWith_of_commandOf_error .parse (parseCommand_capacity hb hp hfull),
    fun htag => failsWith_of_commandOf_error .serialize (serializeCommand_tagLength htag),
    fun _ ho hlong => failsWith_of_commandOf_error .serialize (serializeCommand_capacity ho hlong),
    fun hindex => failsWith_of_commandOf_error .ctRead (readCommand_range hindex),
    fun _ hc hlong => failsWith_of_commandOf_error .ctRead (readCommand_capacity hc hlong)⟩

end Sys2Proof.Machine
end

section
/-! SUPPORT. Proofs of the family 42_reframer.md: the zlib envelope (O49), split and the new IDAT records (O50, O51), where
reassemble puts them (O52), the laws of decrush (O53, O54), and the commands REFRAME and DECRUSH (O55 to O57). -/

namespace Sys2Proof.Machine

open Sys2Proof.Claims

/-! ## The zlib envelope -/

theorem zwrap_length (k : Codec) (u : Bytes) : (zwrap k u).length = 6 + (k.deflate u).length := by
  simp only [zwrap, zhdr, List.length_append, List.length_cons, List.length_nil, be32_length]
  omega

/-- The body of a zlib stream stands after its two header bytes. -/
theorem zwrap_body (k : Codec) (u : Bytes) : ((zwrap k u).drop 2).take (k.deflate u).length = k.deflate u := by
  simp [zwrap, zhdr]

/-- The last four bytes of a zlib stream are the checksum. -/
theorem zwrap_trailer (k : Codec) (u : Bytes) : (zwrap k u).drop ((zwrap k u).length - 4) = be32 (adler32 u) := by
  have hstart : (zwrap k u).length - 4 = (zhdr ++ k.deflate u).length := by
    rw [zwrap, List.length_append, be32_length, Nat.add_sub_cancel]
  rw [hstart, zwrap, List.drop_left]

/-- Settles O49: the three parts of the stream; law I3 for the body. -/
theorem zlibEnvelope : Obligations.ZlibEnvelope := by
  refine fun k u => ⟨rfl, zwrap_length k u, ?_, ?_⟩
  · rw [zwrap_body, k.inflate_deflate]
  · rw [zwrap_trailer, rdBe32_be32]

/-! ## Split -/

theorem ceilDiv_mul (q k : Nat) : ceilDiv (q * (k + 1)) (k + 1) = q :=
  Nat.div_eq_of_lt_le (by omega) (by rw [Nat.succ_mul]; omega)

theorem ceilDiv_mul_add {m k : Nat} (q : Nat) (h : m ≤ k) : ceilDiv (q * (k + 1) + (m + 1)) (k + 1) = q + 1 :=
  Nat.div_eq_of_lt_le (by rw [Nat.succ_mul]; omega) (by rw [Nat.succ_mul, Nat.succ_mul]; omega)

/-- With m bytes over, the ceiling is q + 1 until these are spent; then a multiple of the pieces that remain is left. -/
theorem split_mul_add {m k : Nat} (q : Nat) (h : m ≤ k) :
    split (q * k + m) k = List.replicate m (q + 1) ++ List.replicate (k - m) q := by
  induction k generalizing m with
  | zero => obtain rfl := Nat.le_zero.1 h; rfl
  | succ k ih =>
    cases m with
    | zero =>
      have hpiece : min (ceilDiv (q * (k + 1) + 0) (k + 1)) (q * (k + 1) + 0) = q := by
        rw [Nat.add_zero, ceilDiv_mul, Nat.mul_succ]; omega
      have hrest : q * (k + 1) + 0 - q = q * k + 0 := by rw [Nat.mul_succ]; omega
      rw [split, hpiece, hrest, ih (Nat.zero_le k)]
      simp [List.replicate_succ]
    | succ m =>
      have hm : m ≤ k := Nat.le_of_succ_le_succ h
      have hpiece : min (ceilDiv (q * (k + 1) + (m + 1)) (k + 1)) (q * (k + 1) + (m + 1)) = q + 1 := by
        rw [ceilDiv_mul_add q hm, Nat.mul_succ]; omega
      have hrest : q * (k + 1) + (m + 1) - (q + 1) = q * k + m := by rw [Nat.mul_succ]; omega
      rw [split, hpiece, hrest, ih hm, Nat.add_sub_add_right]
      rfl

theorem split_eq {n k : Nat} (h : 1 ≤ k) :
    split n k = List.replicate (n % k) (n / k + 1) ++ List.replicate (k - n % k) (n / k) := by
  have hsplit := split_mul_add (n / k) (Nat.mod_lt n h).le
  rwa [Nat.div_add_mod'] at hsplit

theorem split_sum {n k : Nat} (h : 1 ≤ k) : (split n k).sum = n := by
  obtain ⟨d, hd⟩ := Nat.exists_eq_add_of_le (Nat.mod_lt n h).le
  calc (split n k).sum = n % k * (n / k + 1) + (k - n % k) * (n / k) := by
        rw [split_eq h, List.sum_append, List.sum_replicate, List.sum_replicate, smul_eq_mul, smul_eq_mul]
    _ = n / k * (n % k + (k - n % k)) + n % k := by ring
    _ = n := by rw [Nat.add_sub_of_le (Nat.mod_lt n h).le, Nat.div_add_mod']

/-- Settles O50: n is n / k for each of the k pieces and n % k over. -/
theorem splitClosedForm : Obligations.SplitClosedForm := fun n k hk =>
  ⟨split_eq hk, split_length n k, split_sum hk⟩

/-! ## The new IDAT records -/

theorem newIdats_data (z : Bytes) (k : Nat) : (newIdats z k).map Chunk.data = pieces z (split z.length k) := by
  rw [newIdats, List.map_map]
  exact List.map_id _

theorem newIdats_flatMap_data {z : Bytes} {k : Nat} (h : 1 ≤ k) : (newIdats z k).flatMap Chunk.data = z := by
  rw [List.flatMap_def, newIdats_data]
  exact (pieces_flatten z _ (split_sum h)).1

theorem newIdats_data_length {z : Bytes} {k : Nat} (h : 1 ≤ k) :
    (newIdats z k).map (fun c => c.data.length) = split z.length k := by
  have hpieces := (pieces_flatten z _ (split_sum h)).2
  rwa [← newIdats_data, List.map_map] at hpieces

/-- Settles O51: the records are fresh ones of the pieces, whose lengths sum to the stream's. -/
theorem newIdatRecords : Obligations.NewIdatRecords := by
  refine fun z k hk => ⟨newIdats_length z k, newIdats_flatMap_data hk, newIdats_data_length hk, fun c hc => ?_⟩
  obtain ⟨piece, -, rfl⟩ := List.mem_map.1 hc
  exact ⟨rfl, rfl⟩

/-! ## Where the new records go -/

theorem idats_eq_nil_iff {cs : List Chunk} : idats cs = [] ↔ ∀ c ∈ cs, kind c.tag ≠ .idat := by
  simp [idats]

/-- Up to the first IDAT the walk keeps the others and drops the markers. -/
theorem reassembleFrom_append {pre : List Chunk} (h : ∀ c ∈ pre, kind c.tag ≠ .idat) (new : List Chunk)
    (inserted : Bool) (cs : List Chunk) :
    reassembleFrom new inserted (pre ++ cs) = others pre ++ reassembleFrom new inserted cs := by
  induction pre with
  | nil => rfl
  | cons c pre ih =>
    obtain ⟨hc, hpre⟩ := List.forall_mem_cons.1 h
    rw [List.cons_append, reassembleFrom, ih hpre]
    cases hk : kind c.tag with
    | idat => exact absurd hk hc
    | cgbi => simp [others, hk]
    | other => simp [others, hk]

theorem reassemble_at_first_idat {pre post new : List Chunk} {c : Chunk} (hpre : ∀ d ∈ pre, kind d.tag ≠ .idat)
    (hc : kind c.tag = .idat) : reassemble (pre ++ c :: post) new = others pre ++ new ++ others post := by
  have hstep : reassembleFrom new false (c :: post) = new ++ reassembleFrom new true post := by
    rw [reassembleFrom, hc]; rfl
  rw [reassemble, reassembleFrom_append hpre, hstep, reassembleFrom_true, List.append_assoc]

theorem reassemble_without_idat {cs : List Chunk} (h : ∀ c ∈ cs, kind c.tag ≠ .idat) (new : List Chunk) :
    reassemble cs new = others cs := by
  have hwalk := reassembleFrom_append h new false []
  rwa [List.append_nil, reassembleFrom, List.append_nil] at hwalk

/-- Settles O52: the walk before, at and after the first IDAT. -/
theorem reassembleInsertsAtTheFirstIdat : Obligations.ReassembleInsertsAtTheFirstIdat :=
  ⟨fun _ _ _ _ hpre hc => reassemble_at_first_idat hpre hc, fun _ new h => reassemble_without_idat h new⟩

/-! ## The laws of decrush -/

/-- With an IDAT, the new records stand at one place among the others. -/
theorem reassemble_eq_others_around {cs : List Chunk} (h : idats cs ≠ []) (new : List Chunk) :
    ∃ pre post, reassemble cs new = others pre ++ new ++ others post ∧ others pre ++ others post = others cs := by
  obtain ⟨pre, c, post, rfl, hpre, hc⟩ := idats_split h
  exact ⟨pre, post, reassemble_at_first_idat hpre hc, by simp [others, hc]⟩

theorem idats_ne_nil_of_idatData {cs : List Chunk} (h : idatData cs ≠ []) : idats cs ≠ [] := by
  intro hnil
  rw [idatData, hnil] at h
  exact h rfl

/-- What a decrush that succeeds answers: the zlib stream of the inflated data as IDAT records among the others. -/
theorem decrush_ok_around {k : Codec} {p : Params} {cs out : List Chunk} (h : decrush k p cs = .ok out) :
    ∃ u pre post, k.inflate (idatData cs) = some u ∧ 1 ≤ (idats cs).length ∧
      out = others pre ++ newIdats (zwrap k u) (idats cs).length ++ others post ∧
      others pre ++ others post = others cs := by
  obtain ⟨u, -, hdata, hu, -, -, -, rfl⟩ := decrush_ok h
  have hidats := idats_ne_nil_of_idatData hdata
  obtain ⟨pre, post, hout, hothers⟩ := reassemble_eq_others_around hidats (newIdats (zwrap k u) (idats cs).length)
  exact ⟨u, pre, post, hu, List.length_pos_iff.2 hidats, hout, hothers⟩

/-- Settles O53: the IDAT records of the output are the new ones, whose data are the pieces of the zlib stream. -/
theorem decrushKeepsTheImageStream : Obligations.DecrushKeepsTheImageStream := fun k p cs out h => by
  obtain ⟨u, pre, post, hu, hcount, rfl, -⟩ := decrush_ok_around h
  refine ⟨u, hu, ?_⟩
  show (idats _).flatMap Chunk.data = zwrap k u
  simp only [idats_append, idats_others, idats_newIdats, List.nil_append, List.append_nil]
  exact newIdats_flatMap_data hcount

theorem decrush_missingMarker {k : Codec} {p : Params} {cs : List Chunk} (h : markers cs = []) :
    decrush k p cs = .error .missingMarker := by
  rw [decrush, if_pos h]

/-- Settles O54: the three parts of the output, each of one kind, counted against the partition of the input. -/
theorem decrushKeepsTheOtherRecords : Obligations.DecrushKeepsTheOtherRecords := fun k p cs out h => by
  obtain ⟨u, pre, post, -, -, hout, hothers⟩ := decrush_ok_around h
  have hidats : idats out = newIdats (zwrap k u) (idats cs).length := by simp [hout]
  have hcount : (idats out).length = (idats cs).length := by rw [hidats, newIdats_length]
  have hmarkers : markers out = [] := by simp [hout]
  have hkept : others out = others cs := by simp [hout, hothers]
  have hlength : out.length + (markers cs).length = cs.length := by
    rw [← length_partition out, ← length_partition cs, hkept, hcount, hmarkers, List.length_nil, Nat.add_zero]
  exact ⟨hcount, hmarkers, hkept, hlength,
    ⟨others pre, others post, by rw [hidats]; exact hout, idats_others pre, idats_others post⟩,
    fun _ => decrush_missingMarker hmarkers⟩

/-! ## REFRAME -/

theorem reframe_codec {k : Codec} {p : Params} {d : Bytes} (h : d = [] ∨ k.inflate d = none) :
    reframe k p d = .error .codec := by
  have hnone : k.inflate d = none := h.elim (fun hd => hd ▸ k.inflate_nil) id
  rw [reframe, hnone, ite_self]

theorem reframe_inflated {k : Codec} {p : Params} {d u : Bytes} (hd : d ≠ []) (hu : k.inflate d = some u) :
    reframe k p d = if u.length > p.scratchBytes then .error .capacity else .ok (zwrap k u) := by
  rw [reframe, if_neg hd, hu]

theorem reframeCommand_range {s : State} (hb : ¬ BInIbuf s) : reframeCommand s = .error .range := by
  rw [reframeCommand, regionB_error hb]

theorem reframeCommand_reframe_error {s : State} {e : Err} (hb : BInIbuf s)
    (h : reframe (codecOf s) s.params (bBytes s) = .error e) : reframeCommand s = .error e := by
  simp only [reframeCommand, regionB_ok hb, h]

theorem reframeCommand_reframe_ok {s : State} {z : Bytes} (hb : BInIbuf s)
    (h : reframe (codecOf s) s.params (bBytes s) = .ok z) :
    reframeCommand s = if z.length > s.params.obufSize then .error .capacity else .ok (writeOutput z s) := by
  simp only [reframeCommand, regionB_ok hb, h]

theorem reframeCommand_codec {s : State} (hb : BInIbuf s)
    (h : bBytes s = [] ∨ (codecOf s).inflate (bBytes s) = none) : reframeCommand s = .error .codec :=
  reframeCommand_reframe_error hb (reframe_codec h)

theorem reframeCommand_capacity {s : State} {u : Bytes} (hb : BInIbuf s) (hd : bBytes s ≠ [])
    (hu : (codecOf s).inflate (bBytes s) = some u)
    (hlong : u.length > s.params.scratchBytes ∨ (zwrap (codecOf s) u).length > s.params.obufSize) :
    reframeCommand s = .error .capacity := by
  by_cases hscratch : u.length > s.params.scratchBytes
  · exact reframeCommand_reframe_error hb (by rw [reframe_inflated hd hu, if_pos hscratch])
  · have hz : reframe (codecOf s) s.params (bBytes s) = .ok (zwrap (codecOf s) u) := by
      rw [reframe_inflated hd hu, if_neg hscratch]
    rw [reframeCommand_reframe_ok hb hz, if_pos (hlong.resolve_left hscratch)]

/-- Settles O55: the rule of REFRAME past its checks writes the zlib stream as an output. -/
theorem reframeResult : Obligations.ReframeResult := fun s u hb hd hu hscratch hlen => by
  have hz : reframe (codecOf s) s.params (bBytes s) = .ok (zwrap (codecOf s) u) := by
    rw [reframe_inflated hd hu, if_neg (Nat.not_lt.2 hscratch)]
  have hrule : commandOf .reframe s = .ok (writeOutput (zwrap (codecOf s) u) s) := by
    rw [commandOf, reframeCommand_reframe_ok hb hz, if_neg (Nat.not_lt.2 hlen)]
  exact ⟨_, exec_of_commandOf_ok _ hrule, wroteOutput_of_eq rfl rfl rfl, rfl, rfl⟩

/-! ## DECRUSH -/

theorem decrush_codec {k : Codec} {p : Params} {cs : List Chunk} (hm : markers cs ≠ [])
    (h : idatData cs = [] ∨ k.inflate (idatData cs) = none) : decrush k p cs = .error .codec := by
  have hnone : k.inflate (idatData cs) = none := h.elim (fun hd => hd ▸ k.inflate_nil) id
  rw [decrush, if_neg hm, hnone, ite_self]

/-- Past the codec, decrush is its three capacity checks. -/
theorem decrush_inflated {k : Codec} {p : Params} {cs : List Chunk} {u : Bytes} (hm : markers cs ≠ [])
    (hd : idatData cs ≠ []) (hu : k.inflate (idatData cs) = some u) :
    decrush k p cs =
      if u.length > p.scratchBytes ∨ (zwrap k u).length > p.scratchBytes ∨ ctabBytes (decrushed k cs u) > p.ctabBytes
      then .error .capacity else .ok (decrushed k cs u) := by
  rw [decrush, if_neg hm, if_neg hd, hu]
  simp only [ite_or]

theorem decrushCommand_decrush_error {s : State} {e : Err} (h : decrush (codecOf s) s.params s.ctab = .error e) :
    decrushCommand s = .error e := by
  rw [decrushCommand, h]

theorem decrushCommand_decrush_ok {s : State} {out : List Chunk}
    (h : decrush (codecOf s) s.params s.ctab = .ok out) : decrushCommand s = .ok { s with ctab := out } := by
  rw [decrushCommand, h]

/-- Settles O56: the rule of DECRUSH past its checks puts the reassembled sequence in CTAB. -/
theorem decrushResult : Obligations.DecrushResult := fun s u hm hd hu hscratch hzlib htable => by
  have hout : decrush (codecOf s) s.params s.ctab = .ok (decrushed (codecOf s) s.ctab u) := by
    rw [decrush_inflated hm hd hu, if_neg]
    rintro (hlong | hlong | hlong)
    · exact Nat.not_lt.2 hscratch hlong
    · exact Nat.not_lt.2 hzlib hlong
    · exact Nat.not_lt.2 htable hlong
  exact exec_of_commandOf_ok .decrush (decrushCommand_decrush_ok hout)

/-! ## The errors of REFRAME and DECRUSH -/

/-- Settles O57: each rule stops at its first check that fails. -/
theorem reframerCommandErrors : Obligations.ReframerCommandErrors := fun _ =>
  ⟨fun hb => failsWith_of_commandOf_error .reframe (reframeCommand_range hb),
    fun hb hd => failsWith_of_commandOf_error .reframe (reframeCommand_codec hb (.inl hd)),
    fun hb hu => failsWith_of_commandOf_error .reframe (reframeCommand_codec hb (.inr hu)),
    fun _ hb hd hu hlong => failsWith_of_commandOf_error .reframe (reframeCommand_capacity hb hd hu hlong),
    fun hm => failsWith_of_commandOf_error .decrush (decrushCommand_decrush_error (decrush_missingMarker hm)),
    fun hm hd => failsWith_of_commandOf_error .decrush (decrushCommand_decrush_error (decrush_codec hm (.inl hd))),
    fun hm hu => failsWith_of_commandOf_error .decrush (decrushCommand_decrush_error (decrush_codec hm (.inr hu))),
    fun _ hm hd hu hlong => failsWith_of_commandOf_error .decrush
      (decrushCommand_decrush_error ((decrush_inflated hm hd hu).trans (if_pos hlong)))⟩

end Sys2Proof.Machine
end

section
/-! SUPPORT. Proofs of the family 60_exceptions.md: an error completion changes STATUS alone (O21), 0x30 never gets into
STATUS (O22), and each command raises the errors of its row and no others (O23). -/

namespace Sys2Proof.Machine

open Sys2Proof.Claims

/-! ## The completion of a command word -/

/-- A word written to CMD ends in one of the two completions; an error completion works on the state before the write. -/
theorem csrWrite_cmd_completion {v : Word} {s t : State} (h : csrWrite 0 v s = .next t) :
    (∃ u, t = successCompletion u) ∨ ∃ e, e ≠ .unsupportedFormat ∧ t = errorCompletion e s := by
  rcases csrWrite_cmd_cases h with ⟨_, u, -, -, ht⟩ | ⟨_, e, -, he, ht⟩ | ⟨-, ht⟩
  · exact .inl ⟨u, ht⟩
  · exact .inr ⟨e, commandOf_error_ne he, ht⟩
  · exact .inr ⟨.illegalCmd, Err.noConfusion, ht⟩

/-- Settles O21: a success completion clears ERR, and an error completion is an update of STATUS. -/
theorem errorCompletionWritesOnlyStatus : Obligations.ErrorCompletionWritesOnlyStatus := by
  intro v s t h herr
  rcases csrWrite_cmd_completion h with ⟨u, rfl⟩ | ⟨e, -, rfl⟩
  · exact absurd herr Bool.false_ne_true
  · exact ⟨code_ne_zero e, rfl⟩

/-! ## The reserved code 0x30 -/

theorem ne_unsupportedFormat_of_legalCode {c : Byte} (h : legalCode c = true) : c ≠ Err.unsupportedFormat.code := by
  rintro rfl
  exact absurd h (by decide)

theorem errCode_ne_of_statusLegal {s : State} (h : StatusLegal s) : s.status.errCode ≠ 0x30 :=
  ne_unsupportedFormat_of_legalCode h.1

theorem statusLegal_of_csrWrite_cmd {v : Word} {s t : State} (h : csrWrite 0 v s = .next t) : StatusLegal t := by
  rcases csrWrite_cmd_completion h with ⟨u, rfl⟩ | ⟨e, he, rfl⟩
  · exact statusLegal_successCompletion u
  · exact statusLegal_errorCompletion s he

/-- A completion and a reset put a legal code into STATUS; everything else that can happen leaves ERR_CODE. -/
theorem keptByEvents_errCode_ne : KeptByEvents fun s => s.status.errCode ≠ 0x30 where
  pending _ _ hs := hs
  answer _ _ hs := hs
  reset s := errCode_ne_of_statusLegal (resetWith_statusLegal s.params (s.resetCount + 1))
  ibufWrite a b s hs := by rwa [ibufWrite_status]
  csrStore r v s hs := by rwa [csrStore_status_errCode]
  success _ _ u _ _ := errCode_ne_of_statusLegal (statusLegal_successCompletion u)
  error _ s he _ := errCode_ne_of_statusLegal (statusLegal_errorCompletion s he)

/-- Settles O22: a command word always leaves a legal code, and every event keeps 0x30 out. -/
theorem noCommandRaisesUnsupportedFormat : Obligations.NoCommandRaisesUnsupportedFormat :=
  ⟨fun _ _ _ h => errCode_ne_of_statusLegal (statusLegal_of_csrWrite_cmd h),
    fun _ _ hs h => keptByEvents_errCode_ne.step_keeps hs h⟩

/-! ## The errors of each command -/

theorem zero_mem_codesOf (i : Instr) : 0x00 ∈ codesOf i := by cases i <;> exact List.mem_cons_self

/-- Each rule raises an error of its row in R115. -/
theorem code_mem_codesOf {i : Instr} {s : State} {e : Err} (h : commandOf i s = .error e) : e.code ∈ codesOf i := by
  cases i
  case nop => cases h
  case crc32 => rw [checksumCommand_error h]; decide
  case adler32 => rw [checksumCommand_error h]; decide
  case parse => rcases parseCommand_error h with rfl | rfl | rfl | rfl <;> decide
  case serialize => rcases serializeCommand_error h with rfl | rfl <;> decide
  case ctClear => cases h
  case ctAppend => rcases appendCommand_error h with rfl | rfl <;> decide
  case ctRead => rcases readCommand_error h with rfl | rfl <;> decide
  case reframe => rcases reframeCommand_error h with rfl | rfl | rfl <;> decide
  case decrush => rcases decrushCommand_error h with rfl | rfl | rfl <;> decide

/-- Settles O23: a success completion writes 0, an error completion the code of the error the rule raised. -/
theorem commandsRaiseOnlyTheirErrors : Obligations.CommandsRaiseOnlyTheirErrors := by
  intro i s t h
  rw [exec_eq] at h
  rcases complete_cases h with ⟨u, -, rfl⟩ | ⟨e, he, rfl⟩
  · exact zero_mem_codesOf i
  · exact code_mem_codesOf he

end Sys2Proof.Machine
end
